-- ==== Sys2Proof/Word.lean ====
section
/-! DEFINITION. The word types of the machine (spec/00_scope.md R1, R4, R5). -/

namespace Sys2Proof

/-- One byte of data memory (20_memory.md R34). -/
abbrev Byte := BitVec 8

/-- XLEN = 64: one register slot, one stack word, an address, a code index (R4). -/
abbrev Word := BitVec 64

/-- ILEN = 32: one instruction word (R4, R56). -/
abbrev InstrWord := BitVec 32

/-- SELBITS = 5: a register selector as it stands in an instruction. Values 16..31 are invalid, and using
one raises `InvalidRegister`, so an instruction carries the whole five bits (10_state.md R15). -/
abbrev Sel := BitVec 5

end Sys2Proof
end

