-- ==== Sys2Proof/Syntax.lean ====
section
/-! DEFINITION. The instructions of the machine: one constructor for each row of spec/opcode_table.json, that is one
for each instruction FORM (30_encoding.md R61 to R70). Operand fields keep the names and widths of
the format tables. Bits the spec calls ignored (R73) are no part of an instruction. -/

namespace Sys2Proof

/-- The data-size field `ds` of LDR and STR (30_encoding.md R68): 8, 16, 32 or 64 bits. -/
inductive DataSize where
  | b8
  | b16
  | b32
  | b64
deriving DecidableEq, Repr

/-- One instruction. Register selectors keep all five bits and condition codes all four, because the
values the spec calls invalid or reserved raise an architectural fault when the instruction runs
(R74, R75). -/
inductive Instr where
  -- format H (R61)
  | halt
  | ret
  | syscall
  | call
  -- format M (R62)
  | mvnotImm (dst : Sel) (imm : BitVec 21)
  | mvnotReg (dst src : Sel)
  | mvnegImm (dst : Sel) (imm : BitVec 21)
  | mvnegReg (dst src : Sel)
  | movImm (dst : Sel) (imm : BitVec 21)
  | movReg (dst src : Sel)
  -- format A (R63)
  | mvaImm (dst : Sel) (quad : BitVec 2) (imm : BitVec 18)
  | mvaReg (dst : Sel) (quad : BitVec 2) (src : Sel)
  -- format B (R64)
  | brImm (link : Bool) (imm : BitVec 25)
  | brReg (link : Bool) (reg : Sel)
  -- format L (R65)
  | lea (dst : Sel) (imm : BitVec 22)
  -- format R (R66)
  | addImm (dst src : Sel) (imm : BitVec 16)
  | addReg (dst src src2 : Sel)
  | subImm (dst src : Sel) (imm : BitVec 16)
  | subReg (dst src src2 : Sel)
  | multImm (dst src : Sel) (imm : BitVec 16)
  | multReg (dst src src2 : Sel)
  | div
  | mod
  | andImm (dst src : Sel) (imm : BitVec 16)
  | andReg (dst src src2 : Sel)
  | orImm (dst src : Sel) (imm : BitVec 16)
  | orReg (dst src src2 : Sel)
  | xorImm (dst src : Sel) (imm : BitVec 16)
  | xorReg (dst src src2 : Sel)
  | lslImm (dst src : Sel) (imm : BitVec 16)
  | lslReg (dst src src2 : Sel)
  | lsrImm (dst src : Sel) (imm : BitVec 16)
  | lsrReg (dst src src2 : Sel)
  | asrImm (dst src : Sel) (imm : BitVec 16)
  | asrReg (dst src src2 : Sel)
  -- format C (R67)
  | cmp (cc : BitVec 4) (lhs rhs : Sel)
  | cset (cc : BitVec 4) (lhs rhs dst : Sel)
  -- format S (R68)
  | ldr (ds : DataSize) (sx : Bool) (rt base : Sel) (off : BitVec 14)
  | str (ds : DataSize) (rt base : Sel) (off : BitVec 14)
deriving DecidableEq, Repr

end Sys2Proof
end

