-- ==== Sys2Proof/WellFormed.lean ====
section
/-! DEFINITION. Well-formed instructions: those whose encoding is none of the faulting encodings of 30_encoding.md
R76. An ill-formed instruction is still decoded, encoded and executed: executing it raises
the fault that R74 or R75 names. -/

namespace Sys2Proof

/-- A selector designates a slot exactly when it is 0..15 (10_state.md R15). -/
def selValid (sel : Sel) : Bool := decide (sel.toNat ≤ 15)

/-- A condition code is defined exactly when it is 0..10 (30_encoding.md R75, R80). -/
def condDefined (cc : BitVec 4) : Bool := decide (cc.toNat ≤ 10)

/-- The register selector fields an instruction's form defines, in the order in which they are resolved:
most significant field first (30_encoding.md R74). -/
def Instr.selectors : Instr → List Sel
  | .halt | .ret | .syscall | .call | .div | .mod => []
  | .mvnotImm dst _ | .mvnegImm dst _ | .movImm dst _ => [dst]
  | .mvnotReg dst src | .mvnegReg dst src | .movReg dst src => [dst, src]
  | .mvaImm dst _ _ => [dst]
  | .mvaReg dst _ src => [dst, src]
  | .brImm _ _ => []
  | .brReg _ reg => [reg]
  | .lea dst _ => [dst]
  | .addImm dst src _ | .subImm dst src _ | .multImm dst src _ => [dst, src]
  | .andImm dst src _ | .orImm dst src _ | .xorImm dst src _ => [dst, src]
  | .lslImm dst src _ | .lsrImm dst src _ | .asrImm dst src _ => [dst, src]
  | .addReg dst src src2 | .subReg dst src src2 | .multReg dst src src2 => [dst, src, src2]
  | .andReg dst src src2 | .orReg dst src src2 | .xorReg dst src src2 => [dst, src, src2]
  | .lslReg dst src src2 | .lsrReg dst src src2 | .asrReg dst src src2 => [dst, src, src2]
  | .cmp _ lhs rhs => [lhs, rhs]
  | .cset _ lhs rhs dst => [lhs, rhs, dst]
  | .ldr _ _ rt base _ => [rt, base]
  | .str _ rt base _ => [rt, base]

/-- The condition-code field, in the two instructions that have one (30_encoding.md R67). -/
def Instr.condCode : Instr → Option (BitVec 4)
  | .cmp cc _ _ => some cc
  | .cset cc _ _ _ => some cc
  | .halt | .ret | .syscall | .call | .div | .mod => none
  | .mvnotImm _ _ | .mvnegImm _ _ | .movImm _ _ => none
  | .mvnotReg _ _ | .mvnegReg _ _ | .movReg _ _ => none
  | .mvaImm _ _ _ | .mvaReg _ _ _ => none
  | .brImm _ _ | .brReg _ _ | .lea _ _ => none
  | .addImm _ _ _ | .subImm _ _ _ | .multImm _ _ _ => none
  | .andImm _ _ _ | .orImm _ _ _ | .xorImm _ _ _ => none
  | .lslImm _ _ _ | .lsrImm _ _ _ | .asrImm _ _ _ => none
  | .addReg _ _ _ | .subReg _ _ _ | .multReg _ _ _ => none
  | .andReg _ _ _ | .orReg _ _ _ | .xorReg _ _ _ => none
  | .lslReg _ _ _ | .lsrReg _ _ _ | .asrReg _ _ _ => none
  | .ldr _ _ _ _ _ | .str _ _ _ _ => none

/-- Every defined selector field is valid and the condition code, if any, is a defined one (R74, R75). -/
def wellFormed (i : Instr) : Bool :=
  i.selectors.all selValid && i.condCode.all condDefined

end Sys2Proof
end

