-- ==== Sys2Proof/Decode.lean ====
section
/-! DEFINITION. The bit-field codec, the decoder and the encoder (spec/30_encoding.md R56 to R77). The numbers and
bit positions are the spec's decisions D1 to D10. -/

namespace Sys2Proof

/-! ### The codec (R57 to R60) -/

/-- `field(w, hi, lo)` with `lo` the bit offset and `n = hi - lo + 1` the width (R57). -/
def field (w : InstrWord) (lo n : Nat) : BitVec n := w.extractLsb' lo n

/-- A one-bit field. -/
def flag (w : InstrWord) (i : Nat) : Bool := w.getLsbD i

/-- The general extender `ext(v, p, signed)` (R58): bits `p..0` of `v`, and above them copies of bit `p` when
`signed`, zeros otherwise. -/
def ext (v : Word) (p : Nat) (signed : Bool) : Word :=
  let high : Word := BitVec.allOnes 64 <<< (p + 1)
  if signed && v.getLsbD p then v ||| high else v &&& ~~~high

/-- `sext_N(v) = ext(v, N-1, true)` (R58). Every immediate is extended by it (R60). -/
def sext {n : Nat} (v : BitVec n) : Word := ext (v.setWidth 64) (n - 1) true

/-- The opcode field `w[31:27]` (R56). -/
def opcode (w : InstrWord) : BitVec 5 := field w 27 5

/-- `ds`: 0 = 8 bits, 1 = 16 bits, 2 = 32 bits, 3 = 64 bits (R68). -/
def DataSize.ofField (ds : BitVec 2) : DataSize :=
  match ds.toNat with
  | 0 => .b8
  | 1 => .b16
  | 2 => .b32
  | _ => .b64

/-- The `ds` field of a data size (R68). -/
def DataSize.toField : DataSize → BitVec 2
  | .b8 => 0
  | .b16 => 1
  | .b32 => 2
  | .b64 => 3

/-! ### Decoding (R61 to R73) -/

/-- What a word decodes to: an instruction, or an unknown opcode with its five bits (R72). -/
inductive Decoded where
  | instr (i : Instr)
  | unknownOpcode (op : BitVec 5)
deriving DecidableEq, Repr

/-- Format H: the sub-kind is `w[26:25]` (R61). -/
def decodeH (w : InstrWord) : Instr :=
  match (field w 25 2).toNat with
  | 0 => .halt
  | 1 => .ret
  | 2 => .syscall
  | _ => .call

/-- Format M: `m = w[21]` chooses the register form (R62, R69). -/
def decodeM (immForm : Sel → BitVec 21 → Instr) (regForm : Sel → Sel → Instr) (w : InstrWord) : Instr :=
  if flag w 21 then regForm (field w 22 5) (field w 16 5) else immForm (field w 22 5) (field w 0 21)

/-- Format A: `m = w[19]`; `w[18]` is ignored (R63, R69). -/
def decodeA (w : InstrWord) : Instr :=
  if flag w 19 then .mvaReg (field w 22 5) (field w 20 2) (field w 13 5)
  else .mvaImm (field w 22 5) (field w 20 2) (field w 0 18)

/-- Format B: `link = w[26]`, `m = w[25]` (R64, R69). -/
def decodeB (w : InstrWord) : Instr :=
  if flag w 25 then .brReg (flag w 26) (field w 20 5) else .brImm (flag w 26) (field w 0 25)

/-- Format L (R65). -/
def decodeL (w : InstrWord) : Instr := .lea (field w 22 5) (field w 0 22)

/-- Format R: `m = w[16]` chooses the register form (R66, R69). -/
def decodeR (immForm : Sel → Sel → BitVec 16 → Instr) (regForm : Sel → Sel → Sel → Instr)
    (w : InstrWord) : Instr :=
  if flag w 16 then regForm (field w 22 5) (field w 17 5) (field w 11 5)
  else immForm (field w 22 5) (field w 17 5) (field w 0 16)

/-- Format C: `cset = w[22]`; the `dst` position is a field of CSET only (R67, R73). -/
def decodeC (w : InstrWord) : Instr :=
  if flag w 22 then .cset (field w 23 4) (field w 17 5) (field w 12 5) (field w 7 5)
  else .cmp (field w 23 4) (field w 17 5) (field w 12 5)

/-- Format S, load: `sx = w[24]` is a field (R68). -/
def decodeLdr (w : InstrWord) : Instr :=
  .ldr (.ofField (field w 25 2)) (flag w 24) (field w 19 5) (field w 14 5) (field w 0 14)

/-- Format S, store: `w[24]` is ignored (R68, R73). -/
def decodeStr (w : InstrWord) : Instr :=
  .str (.ofField (field w 25 2)) (field w 19 5) (field w 14 5) (field w 0 14)

/-- Decode a word by its opcode (R70, R71). Total: opcodes 21..31 are unknown (R72). -/
def decode (w : InstrWord) : Decoded :=
  match (opcode w).toNat with
  | 0 => .instr (decodeH w)
  | 1 => .instr (decodeM .mvnotImm .mvnotReg w)
  | 2 => .instr (decodeM .mvnegImm .mvnegReg w)
  | 3 => .instr (decodeM .movImm .movReg w)
  | 4 => .instr (decodeA w)
  | 5 => .instr (decodeB w)
  | 6 => .instr (decodeL w)
  | 7 => .instr (decodeR .addImm .addReg w)
  | 8 => .instr (decodeR .subImm .subReg w)
  | 9 => .instr (decodeR .multImm .multReg w)
  | 10 => .instr .div
  | 11 => .instr .mod
  | 12 => .instr (decodeR .andImm .andReg w)
  | 13 => .instr (decodeR .orImm .orReg w)
  | 14 => .instr (decodeR .xorImm .xorReg w)
  | 15 => .instr (decodeR .lslImm .lslReg w)
  | 16 => .instr (decodeR .lsrImm .lsrReg w)
  | 17 => .instr (decodeR .asrImm .asrReg w)
  | 18 => .instr (decodeC w)
  | 19 => .instr (decodeLdr w)
  | 20 => .instr (decodeStr w)
  | _ => .unknownOpcode (opcode w)

/-- The host's reading of a row of spec/opcode_table.json: the instruction the decoder reads from the word whose
bits are `w`; bits at and above `nbits` are 0. The code image is a sequence of 32-bit values with no byte
order inside the core (20_memory.md R43). -/
def decodeTableWord (nbits w : Nat) : Option Instr :=
  match decode (BitVec.ofNat 32 (w % 2 ^ nbits)) with
  | .instr i => some i
  | .unknownOpcode _ => none

/-! ### Encoding (R61 to R70). Ignored bits are assembled as 0 (R78). -/

/-- Format H. -/
def encodeH (kind : BitVec 2) : InstrWord := 0#5 ++ kind ++ 0#25

/-- Format M, immediate form. -/
def encodeMImm (op : BitVec 5) (dst : Sel) (imm : BitVec 21) : InstrWord := op ++ dst ++ 0#1 ++ imm

/-- Format M, register form. -/
def encodeMReg (op : BitVec 5) (dst src : Sel) : InstrWord := op ++ dst ++ 1#1 ++ src ++ 0#16

/-- Format A, immediate form. -/
def encodeAImm (dst : Sel) (quad : BitVec 2) (imm : BitVec 18) : InstrWord :=
  4#5 ++ dst ++ quad ++ 0#1 ++ 0#1 ++ imm

/-- Format A, register form. -/
def encodeAReg (dst : Sel) (quad : BitVec 2) (src : Sel) : InstrWord :=
  4#5 ++ dst ++ quad ++ 1#1 ++ 0#1 ++ src ++ 0#13

/-- Format B, immediate form. -/
def encodeBImm (link : Bool) (imm : BitVec 25) : InstrWord := 5#5 ++ BitVec.ofBool link ++ 0#1 ++ imm

/-- Format B, register form. -/
def encodeBReg (link : Bool) (reg : Sel) : InstrWord :=
  5#5 ++ BitVec.ofBool link ++ 1#1 ++ reg ++ 0#20

/-- Format L. -/
def encodeL (dst : Sel) (imm : BitVec 22) : InstrWord := 6#5 ++ dst ++ imm

/-- Format R, immediate form. -/
def encodeRImm (op : BitVec 5) (dst src : Sel) (imm : BitVec 16) : InstrWord :=
  op ++ dst ++ src ++ 0#1 ++ imm

/-- Format R, register form. -/
def encodeRReg (op : BitVec 5) (dst src src2 : Sel) : InstrWord :=
  op ++ dst ++ src ++ 1#1 ++ src2 ++ 0#11

/-- Format C, CMP. -/
def encodeCmp (cc : BitVec 4) (lhs rhs : Sel) : InstrWord :=
  18#5 ++ cc ++ 0#1 ++ lhs ++ rhs ++ 0#12

/-- Format C, CSET. -/
def encodeCset (cc : BitVec 4) (lhs rhs dst : Sel) : InstrWord :=
  18#5 ++ cc ++ 1#1 ++ lhs ++ rhs ++ dst ++ 0#7

/-- Format S. -/
def encodeS (op : BitVec 5) (ds : DataSize) (sx : Bool) (rt base : Sel) (off : BitVec 14) : InstrWord :=
  op ++ ds.toField ++ BitVec.ofBool sx ++ rt ++ base ++ off

/-- The word of an instruction, ignored bits 0. -/
def encode : Instr → InstrWord
  | .halt => encodeH 0#2
  | .ret => encodeH 1#2
  | .syscall => encodeH 2#2
  | .call => encodeH 3#2
  | .mvnotImm dst imm => encodeMImm 1#5 dst imm
  | .mvnotReg dst src => encodeMReg 1#5 dst src
  | .mvnegImm dst imm => encodeMImm 2#5 dst imm
  | .mvnegReg dst src => encodeMReg 2#5 dst src
  | .movImm dst imm => encodeMImm 3#5 dst imm
  | .movReg dst src => encodeMReg 3#5 dst src
  | .mvaImm dst quad imm => encodeAImm dst quad imm
  | .mvaReg dst quad src => encodeAReg dst quad src
  | .brImm link imm => encodeBImm link imm
  | .brReg link reg => encodeBReg link reg
  | .lea dst imm => encodeL dst imm
  | .addImm dst src imm => encodeRImm 7#5 dst src imm
  | .addReg dst src src2 => encodeRReg 7#5 dst src src2
  | .subImm dst src imm => encodeRImm 8#5 dst src imm
  | .subReg dst src src2 => encodeRReg 8#5 dst src src2
  | .multImm dst src imm => encodeRImm 9#5 dst src imm
  | .multReg dst src src2 => encodeRReg 9#5 dst src src2
  | .div => 10#5 ++ 0#27
  | .mod => 11#5 ++ 0#27
  | .andImm dst src imm => encodeRImm 12#5 dst src imm
  | .andReg dst src src2 => encodeRReg 12#5 dst src src2
  | .orImm dst src imm => encodeRImm 13#5 dst src imm
  | .orReg dst src src2 => encodeRReg 13#5 dst src src2
  | .xorImm dst src imm => encodeRImm 14#5 dst src imm
  | .xorReg dst src src2 => encodeRReg 14#5 dst src src2
  | .lslImm dst src imm => encodeRImm 15#5 dst src imm
  | .lslReg dst src src2 => encodeRReg 15#5 dst src src2
  | .lsrImm dst src imm => encodeRImm 16#5 dst src imm
  | .lsrReg dst src src2 => encodeRReg 16#5 dst src src2
  | .asrImm dst src imm => encodeRImm 17#5 dst src imm
  | .asrReg dst src src2 => encodeRReg 17#5 dst src src2
  | .cmp cc lhs rhs => encodeCmp cc lhs rhs
  | .cset cc lhs rhs dst => encodeCset cc lhs rhs dst
  | .ldr ds sx rt base off => encodeS 19#5 ds sx rt base off
  | .str ds rt base off => encodeS 20#5 ds false rt base off

/-! ### The table's match and mask, and the ignored bits, as data -/

/-- The bits of an instruction's row of spec/opcode_table.json: its `match` and its `mask`, digit for digit. -/
def Instr.tableBits : Instr → InstrWord × InstrWord
  | .halt => (0x00000000#32, 0xFE000000#32)
  | .ret => (0x02000000#32, 0xFE000000#32)
  | .syscall => (0x04000000#32, 0xFE000000#32)
  | .call => (0x06000000#32, 0xFE000000#32)
  | .mvnotImm _ _ => (0x08000000#32, 0xF8200000#32)
  | .mvnotReg _ _ => (0x08200000#32, 0xF8200000#32)
  | .mvnegImm _ _ => (0x10000000#32, 0xF8200000#32)
  | .mvnegReg _ _ => (0x10200000#32, 0xF8200000#32)
  | .movImm _ _ => (0x18000000#32, 0xF8200000#32)
  | .movReg _ _ => (0x18200000#32, 0xF8200000#32)
  | .mvaImm _ _ _ => (0x20000000#32, 0xF8080000#32)
  | .mvaReg _ _ _ => (0x20080000#32, 0xF8080000#32)
  | .brImm _ _ => (0x28000000#32, 0xFA000000#32)
  | .brReg _ _ => (0x2A000000#32, 0xFA000000#32)
  | .lea _ _ => (0x30000000#32, 0xF8000000#32)
  | .addImm _ _ _ => (0x38000000#32, 0xF8010000#32)
  | .addReg _ _ _ => (0x38010000#32, 0xF8010000#32)
  | .subImm _ _ _ => (0x40000000#32, 0xF8010000#32)
  | .subReg _ _ _ => (0x40010000#32, 0xF8010000#32)
  | .multImm _ _ _ => (0x48000000#32, 0xF8010000#32)
  | .multReg _ _ _ => (0x48010000#32, 0xF8010000#32)
  | .div => (0x50000000#32, 0xF8000000#32)
  | .mod => (0x58000000#32, 0xF8000000#32)
  | .andImm _ _ _ => (0x60000000#32, 0xF8010000#32)
  | .andReg _ _ _ => (0x60010000#32, 0xF8010000#32)
  | .orImm _ _ _ => (0x68000000#32, 0xF8010000#32)
  | .orReg _ _ _ => (0x68010000#32, 0xF8010000#32)
  | .xorImm _ _ _ => (0x70000000#32, 0xF8010000#32)
  | .xorReg _ _ _ => (0x70010000#32, 0xF8010000#32)
  | .lslImm _ _ _ => (0x78000000#32, 0xF8010000#32)
  | .lslReg _ _ _ => (0x78010000#32, 0xF8010000#32)
  | .lsrImm _ _ _ => (0x80000000#32, 0xF8010000#32)
  | .lsrReg _ _ _ => (0x80010000#32, 0xF8010000#32)
  | .asrImm _ _ _ => (0x88000000#32, 0xF8010000#32)
  | .asrReg _ _ _ => (0x88010000#32, 0xF8010000#32)
  | .cmp _ _ _ => (0x90000000#32, 0xF8400000#32)
  | .cset _ _ _ _ => (0x90400000#32, 0xF8400000#32)
  | .ldr _ _ _ _ _ => (0x98000000#32, 0xF8000000#32)
  | .str _ _ _ _ => (0xA0000000#32, 0xF8000000#32)

/-- The ignored bits of an instruction's form, as R73 lists them. -/
def Instr.ignoredBits : Instr → InstrWord
  | .halt | .ret | .syscall | .call => 0x01FFFFFF#32                    -- w[24:0]
  | .mvnotImm _ _ | .mvnegImm _ _ | .movImm _ _ => 0#32
  | .mvnotReg _ _ | .mvnegReg _ _ | .movReg _ _ => 0x0000FFFF#32        -- w[15:0]
  | .mvaImm _ _ _ => 0x00040000#32                                      -- w[18]
  | .mvaReg _ _ _ => 0x00041FFF#32                                      -- w[18], w[12:0]
  | .brImm _ _ => 0#32
  | .brReg _ _ => 0x000FFFFF#32                                         -- w[19:0]
  | .lea _ _ => 0#32
  | .addImm _ _ _ | .subImm _ _ _ | .multImm _ _ _ => 0#32
  | .andImm _ _ _ | .orImm _ _ _ | .xorImm _ _ _ => 0#32
  | .lslImm _ _ _ | .lsrImm _ _ _ | .asrImm _ _ _ => 0#32
  | .addReg _ _ _ | .subReg _ _ _ | .multReg _ _ _ => 0x000007FF#32     -- w[10:0]
  | .andReg _ _ _ | .orReg _ _ _ | .xorReg _ _ _ => 0x000007FF#32
  | .lslReg _ _ _ | .lsrReg _ _ _ | .asrReg _ _ _ => 0x000007FF#32
  | .div | .mod => 0x07FFFFFF#32                                        -- w[26:0]
  | .cmp _ _ _ => 0x00000FFF#32                                         -- w[11:7], w[6:0]
  | .cset _ _ _ _ => 0x0000007F#32                                      -- w[6:0]
  | .ldr _ _ _ _ _ => 0#32
  | .str _ _ _ _ => 0x01000000#32                                       -- w[24]

end Sys2Proof
end

