-- ==== Sys2Proof/Config.lean ====
section
/-! DEFINITION. What the spec leaves to the host of the machine: the arguments of `create` as they stand in
`State.reset`, and the byte an unlisted memory address reads as (spec/00_scope.md R4). Every other
machine is a different `State` (built by `create` in Machine/Transactions.lean); the claims quantify over
all states, so none of them depends on these values. -/

namespace Sys2Proof.Config

/-- CODE at `State.reset`: no program. DESIGN CHOICE, safe: notes/assumptions/1.md. -/
def code : List InstrWord := []

/-- START_OFFSET at `State.reset`. DESIGN CHOICE, unsafe: notes/assumptions/2.md. -/
def startOffset : Word := 0

/-- STACK_REQ at `State.reset`, the value the spec's own test vectors use. DESIGN CHOICE, unsafe:
notes/assumptions/3.md. -/
def stackReq : Word := 8

/-- N_EXT at `State.reset`: how many extended integer registers there are (10_state.md R17). No rule reads or
writes one. DESIGN CHOICE, unsafe: notes/assumptions/4.md. -/
def nExt : Nat := 3

/-- What a data address that memory does not list reads as; so MEM_INIT at `State.reset` is all zero.
DESIGN CHOICE, unsafe: notes/assumptions/5.md. -/
def unlistedByte : Byte := 0

end Sys2Proof.Config
end

