-- ==== Sys2Proof/Machine/State.lean ====
section
/-! DEFINITION. Everything the machine holds (spec/10_state.md R11), the fault kinds (60_exceptions.md R112), the
reasons a step of this model can stop, and the state after reset. -/

namespace Sys2Proof.Machine

/-- The sub-kind a halt reports (40_halt_family.md R85, 60_exceptions.md R118). -/
inductive HaltKind where
  | halt
  | ret
  | syscall
  | call
deriving DecidableEq, Repr

/-- The nine fault kinds of the machine, with their payloads (60_exceptions.md R112). They are values of the
machine's own `run`: a fault is a transition of the machine, and its state is kept (R114). -/
inductive ErrorKind where
  /-- A register field the form defines holds 16..31. -/
  | invalidRegister (sel : BitVec 5)
  /-- The opcode is 21..31. -/
  | unknownOpcode (op : BitVec 5)
  /-- A client of `push` or `reserve` that must fault: no instruction of this core. -/
  | stackOverflow
  /-- `pop` with `sp = 0`: no instruction of this core. -/
  | stackUnderflow
  /-- `set_n` outside 1..sp-1: no instruction of this core. -/
  | invalidIndex (index : Nat)
  /-- LDR or STR of `size` bytes at `addr` leaves the data space. -/
  | memoryFault (addr : Word) (size : Nat)
  /-- DIV, MOD (opcodes 10, 11), or CMP / CSET (opcode 18) with a reserved condition. -/
  | unsupported (op : BitVec 5)
  /-- `create` only, never a step. -/
  | allocationFailure
  /-- Instruction fetch at or beyond the end of the code image. -/
  | fetchFault (index : Word)
deriving DecidableEq, Repr

/-- The run state (R26). `halted` and `faulted` are terminal. -/
inductive RunState where
  | running
  | halted (kind : HaltKind)
  | faulted (error : ErrorKind)
deriving DecidableEq, Repr

/-- Data memory, byte by byte: a list of (address, byte), addresses strictly rising, no entry equal to
`Config.unlistedByte`, which is what an unlisted address reads as (see `Memory.wf`). Byte address `a` is
byte `a mod 8` of stack word `a / 8` (20_memory.md R34). -/
abbrev Memory := List Host.Cell

/-- The state of one machine (R11). `code` and `cap` are the parameters fixed at creation that the step
reads; the spec keeps them outside the state, here they are fields no step changes
(notes/assumptions/6.md). -/
structure State where
  /-- r0..r7 are `x[0..7]` (R12), f0..f7 are `x[8..15]` (R13). -/
  x : Vector Word 16
  /-- The extended integer registers `xr[0..N_EXT-1]` (R17). -/
  xr : List Word
  /-- The indirect-return register (R17). -/
  iret : Word
  /-- The syscall-code register (R17). -/
  sysc : Word
  /-- The instruction pointer: a code index, in instruction words (R18). -/
  ip : Word
  /-- The frame pointer (R21). -/
  fp : Word
  /-- The stack pointer: index of the next free stack word (R22). -/
  sp : Nat
  /-- The comparison latch (R23). -/
  lastCmp : Bool
  /-- The stack array `mem[0..CAP-1]`, in its byte view (R24, 20_memory.md R34). -/
  mem : Memory
  /-- The run state (R26). -/
  run : RunState
  /-- CODE: the code image (R25). CODE_LEN is its length. -/
  code : List InstrWord
  /-- CAP: the number of 64-bit words of the stack array (R24). -/
  cap : Nat
deriving DecidableEq, Repr

/-- Why a step of this model gives no next state. Faults of the machine are not here: they are next states
(R114). -/
inductive Fault where
  /-- Raised by `step` alone, on a machine whose `run` is terminal: the spec enables no step there (R27,
  93_implementation_defined.md U17 `stuck`). Safe: the model stops where the machine has no transition. -/
  | notRunning
deriving DecidableEq, Repr

/-- Why the model gives an instruction no meaning. -/
inductive Refusal where
  /-- Raised by an arm of `exec` for an instruction that has no meaning yet. Safe. No arm raises it: every
  instruction of the opcode table has its meaning. -/
  | notModelled (mnemonic : String)
deriving DecidableEq, Repr

/-- The outcome of executing an instruction, or of a step. -/
abbrev Out := Host.Outcome State Fault Refusal

/-- The machine right after `create` (R30, 70_reset_and_hazards.md R124) with the arguments of Config:
CAP is STACK_REQ rounded up to a multiple of 8 (20_memory.md R44). -/
def State.reset : State where
  x := Vector.replicate 16 0
  xr := List.replicate Config.nExt 0
  iret := 0
  sysc := 0
  ip := Config.startOffset
  fp := 0
  sp := 0
  lastCmp := false
  mem := []
  run := .running
  code := Config.code
  cap := 8 * ((Config.stackReq.toNat + 7) / 8)

end Sys2Proof.Machine
end

