-- ==== Sys2Proof/Machine/Ops.lean ====
section
/-! DEFINITION. The named operations every meaning is written over: the field updates, the register file, data
memory in bytes and its two sized access primitives, instruction fetch, and how an instruction ends (next state,
halt, fault). -/

namespace Sys2Proof.Machine

/-! ### Field updates -/

/-- Write register slot `d` (10_state.md R15). -/
def State.setReg (s : State) (d : Fin 16) (v : Word) : State := { s with x := s.x.set d v }
/-- Write the instruction pointer (00_scope.md R7, `ip <- t`). -/
def State.setIp (s : State) (v : Word) : State := { s with ip := v }
/-- Write the frame pointer. -/
def State.setFp (s : State) (v : Word) : State := { s with fp := v }
/-- Write the stack pointer. -/
def State.setSp (s : State) (n : Nat) : State := { s with sp := n }
/-- Write the comparison latch. -/
def State.setLatch (s : State) (b : Bool) : State := { s with lastCmp := b }
/-- Write data memory. -/
def State.setMem (s : State) (m : Memory) : State := { s with mem := m }
/-- Write the run state. -/
def State.setRun (s : State) (r : RunState) : State := { s with run := r }

/-! ### The register file (10_state.md R12 to R16) -/

/-- The content of register slot `r`, `x[r]` (00_scope.md R7). -/
def State.reg (s : State) (r : Fin 16) : Word := s.x[r]

/-- `resolve` (R15): selectors 0..15 designate their slot, 16..31 fail with `InvalidRegister(sel)`. -/
def resolve (sel : Sel) : Except ErrorKind (Fin 16) :=
  if h : sel.toNat < 16 then .ok ⟨sel.toNat, h⟩ else .error (.invalidRegister sel)

/-! ### How an instruction ends -/

/-- `raise E(info)` (60_exceptions.md R114), the machine's one exceptional event: `run <- Faulted(E(info))` and
no other state element is written. Nothing is saved elsewhere, control goes nowhere, and there is no return from
it (R115). In a step `ip` keeps the value fetch gave it (10_state.md R20). -/
def raise (e : ErrorKind) (s : State) : Out := .next (s.setRun (.faulted e))

/-- `halt(kind)` (60_exceptions.md R118): `run <- Halted(kind)` and nothing else. -/
def haltWith (k : HaltKind) (s : State) : Out := .next (s.setRun (.halted k))

/-- End an instruction begun in `s`: with its new state, or by the first fault it met, which discards
whatever the instruction computed (R114: validation precedes every write). -/
def complete (s : State) (r : Except ErrorKind State) : Out :=
  match r with
  | .ok t => .next t
  | .error e => raise e s

/-! ### Data memory (20_memory.md R33 to R42) -/

/-- `B(a)`: the byte at byte address `a` (R34). -/
def Memory.readByte : Memory → Nat → Byte
  | [], _ => Config.unlistedByte
  | (a', b') :: m, a => if a = a' then b' else Memory.readByte m a

/-- Drop every entry at address `a`. -/
def Memory.removeByte : Memory → Nat → Memory
  | [], _ => []
  | (a', b') :: m, a => if a' = a then Memory.removeByte m a else (a', b') :: Memory.removeByte m a

/-- Insert an entry before the first one at a higher address. -/
def Memory.insertByte : Memory → Nat → Byte → Memory
  | [], a, b => [(a, b)]
  | (a', b') :: m, a, b =>
    if a < a' then (a, b) :: (a', b') :: m else (a', b') :: Memory.insertByte m a b

/-- `B(a) <- b`, keeping the canonical form: writing what an unlisted address reads as removes the entry. -/
def Memory.writeByte (m : Memory) (a : Nat) (b : Byte) : Memory :=
  if b = Config.unlistedByte then Memory.removeByte m a
  else Memory.insertByte (Memory.removeByte m a) a b

/-- The canonical form, from address `lo` up. -/
def Memory.wfFrom : Nat → Memory → Bool
  | _, [] => true
  | lo, (a, b) :: m => decide (lo ≤ a) && decide (b ≠ Config.unlistedByte) && Memory.wfFrom (a + 1) m

/-- The canonical form: addresses strictly rising, no entry equal to what an unlisted address reads as. -/
def Memory.wf (m : Memory) : Bool := Memory.wfFrom 0 m

/-- The `n` bytes from address `a`, little-endian: the sum over `k` of `B(a + k) * 2^(8k)` (R35, R36). -/
def Memory.loadLE (m : Memory) (a : Nat) : Nat → Nat
  | 0 => 0
  | n + 1 => (Memory.readByte m a).toNat + 256 * Memory.loadLE m (a + 1) n

/-- Write the low `n` bytes of `v` from address `a`, least significant byte first (R35, R37). -/
def Memory.storeLE (m : Memory) (a : Nat) (v : Word) : Nat → Memory
  | 0 => m
  | n + 1 => Memory.storeLE (Memory.writeByte m a (v.setWidth 8)) (a + 1) (v >>> 8) n

/-- The byte at byte address `a` of the machine's data space. -/
def State.byteAt (s : State) (a : Nat) : Byte := Memory.readByte s.mem a

/-- The bound check of R38, in the natural numbers: `u(addr) + n <= 8 * CAP`. -/
def inBounds (addr : Word) (n : Nat) (s : State) : Bool := decide (addr.toNat + n ≤ 8 * s.cap)

/-- `MemRead(addr, n)` (R36): the unsigned value of the `n` bytes, or `MemoryFault(addr, n)`. -/
def memRead (addr : Word) (n : Nat) (s : State) : Except ErrorKind Word :=
  if inBounds addr n s then .ok (BitVec.ofNat 64 (Memory.loadLE s.mem addr.toNat n))
  else .error (.memoryFault addr n)

/-- `MemWrite(addr, n, v)` (R37) of the low `n` bytes of `v`: every other byte keeps its value; or
`MemoryFault(addr, n)` and no byte is written. -/
def memWrite (addr : Word) (n : Nat) (v : Word) (s : State) : Except ErrorKind State :=
  if inBounds addr n s then .ok (s.setMem (Memory.storeLE s.mem addr.toNat v n))
  else .error (.memoryFault addr n)

/-! ### Instruction fetch (20_memory.md R43, 10_state.md R19) -/

/-- `CodeRead(i)`: the word at code index `i`, none exactly when `i >= CODE_LEN`. -/
def codeRead (i : Word) (s : State) : Option InstrWord := s.code[i.toNat]?

/-- The fetch advance: `ip <- ip + 1`, before the instruction is decoded (R19). -/
def advanceIp (s : State) : State := s.setIp (s.ip + 1)

/-- Is the step enabled (R27)? -/
def State.isRunning (s : State) : Bool := decide (s.run = .running)

/-- A code image that holds `w` at index `i`: `code` with that word replaced, after padding with zero words
where `code` is shorter. -/
def placeWord (code : List InstrWord) (i : Nat) (w : InstrWord) : List InstrWord :=
  (code ++ List.replicate (i + 1 - code.length) 0).set i w

end Sys2Proof.Machine
end

