-- ==== Sys2Proof/Machine/Operands.lean ====
section
/-! DEFINITION. Every operand form of the instruction set: register or immediate sources (30_encoding.md R69), the
shift amount (44_bitwise_shift.md R105), and the one addressing mode (46_load_store.md R109). -/

namespace Sys2Proof.Machine

/-- The last source operand of formats M, A and R: an `n`-bit immediate (`m = 0`) or a register (`m = 1`). -/
inductive Operand (n : Nat) where
  | imm (v : BitVec n)
  | reg (sel : Sel)
deriving DecidableEq, Repr

/-- `operand_M`, `operand_A`, `operand_R` (R69): the sign-extended immediate, or the content of the register the
selector resolves to. -/
def operand {n : Nat} (o : Operand n) (s : State) : Except ErrorKind Word :=
  match o with
  | .imm v => .ok (sext v)
  | .reg sel => do
    let r ← resolve sel
    return s.reg r

/-- The shift amount: the low six bits of the operand (R105). -/
def shiftAmount (b : Word) : Nat := (b.extractLsb' 0 6).toNat

/-- The access size in bytes: `2^ds` (30_encoding.md R68). -/
def sizeBytes (ds : DataSize) : Nat :=
  match ds with
  | .b8 => 1
  | .b16 => 2
  | .b32 => 4
  | .b64 => 8

/-- The effective address: base register plus sign-extended offset, modulo 2^64 (R109). -/
def effectiveAddress (base : Fin 16) (off : BitVec 14) (s : State) : Word := s.reg base + sext off

end Sys2Proof.Machine
end

