-- ==== Sys2Proof/Machine/Alu.lean ====
section
/-! DEFINITION. The shape of every computing instruction of format R (spec/43_arith.md and
spec/44_bitwise_shift.md, common preamble). -/

namespace Sys2Proof.Machine

/-- `d <- reg(dst); a <- x[reg(src)]; b <- operand_R; x[d] <- f a b`. -/
def aluOp (f : Word → Word → Word) (dst src : Sel) (o : Operand 16) (s : State) : Except ErrorKind State := do
  let d ← resolve dst
  let a ← resolve src
  let b ← operand o s
  return s.setReg d (f (s.reg a) b)

end Sys2Proof.Machine
end

