-- ==== Sys2Proof/Machine/Arith.lean ====
section
/-! DEFINITION. ADD, SUB, MULT, DIV, MOD (spec/43_arith.md R93 to R98). All arithmetic is modulo 2^64; overflow
raises nothing and sets no flag. -/

namespace Sys2Proof.Machine

/-- ADD, immediate form (R93). -/
def execAddImm (dst src : Sel) (imm : BitVec 16) (s : State) : Out :=
  complete s (aluOp (fun a b => a + b) dst src (.imm imm) s)

/-- ADD, register form (R93). -/
def execAddReg (dst src src2 : Sel) (s : State) : Out :=
  complete s (aluOp (fun a b => a + b) dst src (.reg src2) s)

/-- SUB, immediate form (R94). -/
def execSubImm (dst src : Sel) (imm : BitVec 16) (s : State) : Out :=
  complete s (aluOp (fun a b => a - b) dst src (.imm imm) s)

/-- SUB, register form (R94). -/
def execSubReg (dst src src2 : Sel) (s : State) : Out :=
  complete s (aluOp (fun a b => a - b) dst src (.reg src2) s)

/-- MULT, immediate form (R95). -/
def execMultImm (dst src : Sel) (imm : BitVec 16) (s : State) : Out :=
  complete s (aluOp (fun a b => a * b) dst src (.imm imm) s)

/-- MULT, register form (R95). -/
def execMultReg (dst src src2 : Sel) (s : State) : Out :=
  complete s (aluOp (fun a b => a * b) dst src (.reg src2) s)

/-- DIV (R96): always `Unsupported(10)`; no field below the opcode is read. -/
def execDiv (s : State) : Out := complete s (.error (.unsupported 10))

/-- MOD (R97): always `Unsupported(11)`; no field below the opcode is read. -/
def execMod (s : State) : Out := complete s (.error (.unsupported 11))

end Sys2Proof.Machine
end

