-- ==== Sys2Proof/Machine/Bitwise.lean ====
section
/-! DEFINITION. AND, OR, XOR and the shifts LSL, LSR, ASR (spec/44_bitwise_shift.md R99 to R105). -/

namespace Sys2Proof.Machine

/-- AND, immediate form (R99). -/
def execAndImm (dst src : Sel) (imm : BitVec 16) (s : State) : Out :=
  complete s (aluOp (fun a b => a &&& b) dst src (.imm imm) s)

/-- AND, register form (R99). -/
def execAndReg (dst src src2 : Sel) (s : State) : Out :=
  complete s (aluOp (fun a b => a &&& b) dst src (.reg src2) s)

/-- OR, immediate form (R100). -/
def execOrImm (dst src : Sel) (imm : BitVec 16) (s : State) : Out :=
  complete s (aluOp (fun a b => a ||| b) dst src (.imm imm) s)

/-- OR, register form (R100). -/
def execOrReg (dst src src2 : Sel) (s : State) : Out :=
  complete s (aluOp (fun a b => a ||| b) dst src (.reg src2) s)

/-- XOR, immediate form (R101). -/
def execXorImm (dst src : Sel) (imm : BitVec 16) (s : State) : Out :=
  complete s (aluOp (fun a b => a ^^^ b) dst src (.imm imm) s)

/-- XOR, register form (R101). -/
def execXorReg (dst src src2 : Sel) (s : State) : Out :=
  complete s (aluOp (fun a b => a ^^^ b) dst src (.reg src2) s)

/-- LSL, immediate form (R102, R105). -/
def execLslImm (dst src : Sel) (imm : BitVec 16) (s : State) : Out :=
  complete s (aluOp (fun a b => a <<< shiftAmount b) dst src (.imm imm) s)

/-- LSL, register form (R102, R105). -/
def execLslReg (dst src src2 : Sel) (s : State) : Out :=
  complete s (aluOp (fun a b => a <<< shiftAmount b) dst src (.reg src2) s)

/-- LSR, immediate form (R103, R105). -/
def execLsrImm (dst src : Sel) (imm : BitVec 16) (s : State) : Out :=
  complete s (aluOp (fun a b => a >>> shiftAmount b) dst src (.imm imm) s)

/-- LSR, register form (R103, R105). -/
def execLsrReg (dst src src2 : Sel) (s : State) : Out :=
  complete s (aluOp (fun a b => a >>> shiftAmount b) dst src (.reg src2) s)

/-- ASR, immediate form (R104, R105). -/
def execAsrImm (dst src : Sel) (imm : BitVec 16) (s : State) : Out :=
  complete s (aluOp (fun a b => a.sshiftRight (shiftAmount b)) dst src (.imm imm) s)

/-- ASR, register form (R104, R105). -/
def execAsrReg (dst src src2 : Sel) (s : State) : Out :=
  complete s (aluOp (fun a b => a.sshiftRight (shiftAmount b)) dst src (.reg src2) s)

end Sys2Proof.Machine
end

