-- ==== Sys2Proof/Machine/Branch.lean ====
section
/-! DEFINITION. BR and LEA (spec/42_branch_lea.md R90, R91). On entry `ip` is the index of the next instruction
(10_state.md R19). The target is not checked: the next fetch does (R90, 20_memory.md R43). -/

namespace Sys2Proof.Machine

/-- `if link then fp <- ip` and then `ip <- target` (R90). -/
def branchTo (link : Bool) (target : Word) (s : State) : State :=
  (if link then s.setFp s.ip else s).setIp target

/-- BR, immediate form: relative to the next instruction, modulo 2^64 (R90). -/
def execBrImm (link : Bool) (imm : BitVec 25) (s : State) : Out :=
  complete s (.ok (branchTo link (s.ip + sext imm) s))

/-- BR, register form: the register holds the code index; the selector is resolved before `fp` is written (R90). -/
def execBrReg (link : Bool) (reg : Sel) (s : State) : Out :=
  complete s (do
    let r ← resolve reg
    return branchTo link (s.reg r) s)

/-- LEA (R91). -/
def execLea (dst : Sel) (imm : BitVec 22) (s : State) : Out :=
  complete s (do
    let d ← resolve dst
    return s.setReg d (s.ip + sext imm))

end Sys2Proof.Machine
end

