-- ==== Sys2Proof/Machine/Flags.lean ====
section
/-! DEFINITION. Condition evaluation, the machine's only flag computation (30_encoding.md R80, 45_compare.md R106). No
instruction writes a flag as a side effect (10_state.md R32). -/

namespace Sys2Proof.Machine

/-- The eleven conditions, under the source's names (R80). -/
inductive Cond where
  | always
  | equal
  | diff
  | sup
  | supeq
  | inf
  | infeq
  | unsignedSup
  | unsignedSupeq
  | unsignedInf
  | unsignedInfeq
deriving DecidableEq, Repr

/-- The condition a 4-bit code selects: 0..10; 11..15 are reserved (R75, R80). -/
def condOfCode (cc : BitVec 4) : Option Cond :=
  match cc.toNat with
  | 0 => some .always
  | 1 => some .equal
  | 2 => some .diff
  | 3 => some .sup
  | 4 => some .supeq
  | 5 => some .inf
  | 6 => some .infeq
  | 7 => some .unsignedSup
  | 8 => some .unsignedSupeq
  | 9 => some .unsignedInf
  | 10 => some .unsignedInfeq
  | _ => none

/-- `cond(cc, a, b)`, with `a` the lhs register and `b` the rhs register (R106). -/
def condHolds (c : Cond) (a b : Word) : Bool :=
  match c with
  | .always => true
  | .equal => a == b
  | .diff => a != b
  | .sup => b.slt a
  | .supeq => b.sle a
  | .inf => a.slt b
  | .infeq => a.sle b
  | .unsignedSup => b.ult a
  | .unsignedSupeq => b.ule a
  | .unsignedInf => a.ult b
  | .unsignedInfeq => a.ule b

/-- Evaluate a condition code; a reserved one fails with `Unsupported(18)` (R75). -/
def evalCond (cc : BitVec 4) (a b : Word) : Except ErrorKind Bool :=
  match condOfCode cc with
  | some c => .ok (condHolds c a b)
  | none => .error (.unsupported 18)

/-- `b2i` (00_scope.md R6). -/
def b2i (b : Bool) : Word := if b then 1 else 0

end Sys2Proof.Machine
end

