-- ==== Sys2Proof/Machine/Compare.lean ====
section
/-! DEFINITION. CMP and CSET (spec/45_compare.md R107, R108). The selectors are resolved before the condition code is
looked at (30_encoding.md R75). -/

namespace Sys2Proof.Machine

/-- CMP (R107): the condition goes to the latch; no register is written. -/
def execCmp (cc : BitVec 4) (lhs rhs : Sel) (s : State) : Out :=
  complete s (do
    let l ← resolve lhs
    let r ← resolve rhs
    let c ← evalCond cc (s.reg l) (s.reg r)
    return s.setLatch c)

/-- CSET (R108): the condition goes to a register as 0 or 1; the latch is not touched. -/
def execCset (cc : BitVec 4) (lhs rhs dst : Sel) (s : State) : Out :=
  complete s (do
    let l ← resolve lhs
    let r ← resolve rhs
    let d ← resolve dst
    let c ← evalCond cc (s.reg l) (s.reg r)
    return s.setReg d (b2i c))

end Sys2Proof.Machine
end

