-- ==== Sys2Proof/Machine/Halt.lean ====
section
/-! DEFINITION. The HALT family (spec/40_halt_family.md): each stops the run with its sub-kind, and does nothing else. -/

namespace Sys2Proof.Machine

/-- HALT (R81, R85). -/
def execHalt (s : State) : Out := haltWith .halt s

/-- RET (R82, R85): a halt; it does not read `fp`. -/
def execRet (s : State) : Out := haltWith .ret s

/-- SYSCALL (R83, R85): a halt; no system service is performed. -/
def execSyscall (s : State) : Out := haltWith .syscall s

/-- CALL (R84, R85): a halt; it pushes nothing and writes no link. -/
def execCall (s : State) : Out := haltWith .call s

end Sys2Proof.Machine
end

