-- ==== Sys2Proof/Machine/LoadStore.lean ====
section
/-! DEFINITION. LDR and STR (spec/46_load_store.md R109 to R111). No alignment is required (20_memory.md R39) and the
base register is never modified (R109). -/

namespace Sys2Proof.Machine

/-- LDR (R110): the data register first, then the base, then the bound check; the loaded value is extended from
bit `8n - 1`. -/
def execLdr (ds : DataSize) (sx : Bool) (rt base : Sel) (off : BitVec 14) (s : State) : Out :=
  complete s (do
    let t ← resolve rt
    let bs ← resolve base
    let v ← memRead (effectiveAddress bs off s) (sizeBytes ds) s
    return s.setReg t (ext v (8 * sizeBytes ds - 1) sx))

/-- STR (R111): the low `n` bytes of the data register. -/
def execStr (ds : DataSize) (rt base : Sel) (off : BitVec 14) (s : State) : Out :=
  complete s (do
    let t ← resolve rt
    let bs ← resolve base
    memWrite (effectiveAddress bs off s) (sizeBytes ds) (s.reg t) s)

end Sys2Proof.Machine
end

