-- ==== Sys2Proof/Machine/Move.lean ====
section
/-! DEFINITION. The move family MVNOT, MVNEG, MOV, MVA (spec/41_move.md R86 to R89). -/

namespace Sys2Proof.Machine

/-- `d <- reg(dst); v <- operand; x[d] <- f v`: the shape of R86, R87 and R88. -/
def moveOp (f : Word → Word) (dst : Sel) (o : Operand 21) (s : State) : Except ErrorKind State := do
  let d ← resolve dst
  let v ← operand o s
  return s.setReg d (f v)

/-- The move-accumulate of R89: `x[d] <- x[d] | (v << 16 * quad)`. -/
def accumulateOp (dst : Sel) (quad : BitVec 2) (o : Operand 18) (s : State) : Except ErrorKind State := do
  let d ← resolve dst
  let v ← operand o s
  return s.setReg d (s.reg d ||| (v <<< (16 * quad.toNat)))

/-- MVNOT, immediate form (R86). -/
def execMvnotImm (dst : Sel) (imm : BitVec 21) (s : State) : Out :=
  complete s (moveOp (fun v => ~~~v) dst (.imm imm) s)

/-- MVNOT, register form (R86). -/
def execMvnotReg (dst src : Sel) (s : State) : Out :=
  complete s (moveOp (fun v => ~~~v) dst (.reg src) s)

/-- MVNEG, immediate form (R87). -/
def execMvnegImm (dst : Sel) (imm : BitVec 21) (s : State) : Out :=
  complete s (moveOp (fun v => 0 - v) dst (.imm imm) s)

/-- MVNEG, register form (R87). -/
def execMvnegReg (dst src : Sel) (s : State) : Out :=
  complete s (moveOp (fun v => 0 - v) dst (.reg src) s)

/-- MOV, immediate form (R88). -/
def execMovImm (dst : Sel) (imm : BitVec 21) (s : State) : Out :=
  complete s (moveOp (fun v => v) dst (.imm imm) s)

/-- MOV, register form (R88). -/
def execMovReg (dst src : Sel) (s : State) : Out :=
  complete s (moveOp (fun v => v) dst (.reg src) s)

/-- MVA, immediate form (R89). -/
def execMvaImm (dst : Sel) (quad : BitVec 2) (imm : BitVec 18) (s : State) : Out :=
  complete s (accumulateOp dst quad (.imm imm) s)

/-- MVA, register form (R89). -/
def execMvaReg (dst : Sel) (quad : BitVec 2) (src : Sel) (s : State) : Out :=
  complete s (accumulateOp dst quad (.reg src) s)

end Sys2Proof.Machine
end

