-- ==== Sys2Proof/Machine/Dispatch.lean ====
section
/-! DEFINITION. The dispatcher: one arm per instruction form (spec/30_encoding.md R71). `exec i s` runs `i` in a state
whose `ip` the fetch has already advanced (10_state.md R19). -/

namespace Sys2Proof.Machine

def exec (i : Instr) (s : State) : Host.Outcome State Fault Refusal :=
  match i with
  | .halt => Sys2Proof.Machine.execHalt s
  | .ret => Sys2Proof.Machine.execRet s
  | .syscall => Sys2Proof.Machine.execSyscall s
  | .call => Sys2Proof.Machine.execCall s
  | .mvnotImm dst imm => Sys2Proof.Machine.execMvnotImm dst imm s
  | .mvnotReg dst src => Sys2Proof.Machine.execMvnotReg dst src s
  | .mvnegImm dst imm => Sys2Proof.Machine.execMvnegImm dst imm s
  | .mvnegReg dst src => Sys2Proof.Machine.execMvnegReg dst src s
  | .movImm dst imm => Sys2Proof.Machine.execMovImm dst imm s
  | .movReg dst src => Sys2Proof.Machine.execMovReg dst src s
  | .mvaImm dst quad imm => Sys2Proof.Machine.execMvaImm dst quad imm s
  | .mvaReg dst quad src => Sys2Proof.Machine.execMvaReg dst quad src s
  | .brImm link imm => Sys2Proof.Machine.execBrImm link imm s
  | .brReg link reg => Sys2Proof.Machine.execBrReg link reg s
  | .lea dst imm => Sys2Proof.Machine.execLea dst imm s
  | .addImm dst src imm => Sys2Proof.Machine.execAddImm dst src imm s
  | .addReg dst src src2 => Sys2Proof.Machine.execAddReg dst src src2 s
  | .subImm dst src imm => Sys2Proof.Machine.execSubImm dst src imm s
  | .subReg dst src src2 => Sys2Proof.Machine.execSubReg dst src src2 s
  | .multImm dst src imm => Sys2Proof.Machine.execMultImm dst src imm s
  | .multReg dst src src2 => Sys2Proof.Machine.execMultReg dst src src2 s
  | .div => Sys2Proof.Machine.execDiv s
  | .mod => Sys2Proof.Machine.execMod s
  | .andImm dst src imm => Sys2Proof.Machine.execAndImm dst src imm s
  | .andReg dst src src2 => Sys2Proof.Machine.execAndReg dst src src2 s
  | .orImm dst src imm => Sys2Proof.Machine.execOrImm dst src imm s
  | .orReg dst src src2 => Sys2Proof.Machine.execOrReg dst src src2 s
  | .xorImm dst src imm => Sys2Proof.Machine.execXorImm dst src imm s
  | .xorReg dst src src2 => Sys2Proof.Machine.execXorReg dst src src2 s
  | .lslImm dst src imm => Sys2Proof.Machine.execLslImm dst src imm s
  | .lslReg dst src src2 => Sys2Proof.Machine.execLslReg dst src src2 s
  | .lsrImm dst src imm => Sys2Proof.Machine.execLsrImm dst src imm s
  | .lsrReg dst src src2 => Sys2Proof.Machine.execLsrReg dst src src2 s
  | .asrImm dst src imm => Sys2Proof.Machine.execAsrImm dst src imm s
  | .asrReg dst src src2 => Sys2Proof.Machine.execAsrReg dst src src2 s
  | .cmp cc lhs rhs => Sys2Proof.Machine.execCmp cc lhs rhs s
  | .cset cc lhs rhs dst => Sys2Proof.Machine.execCset cc lhs rhs dst s
  | .ldr ds sx rt base off => Sys2Proof.Machine.execLdr ds sx rt base off s
  | .str ds rt base off => Sys2Proof.Machine.execStr ds rt base off s

end Sys2Proof.Machine
end

