-- ==== Sys2Proof/Machine/Step.lean ====
section
/-! DEFINITION. The step (spec/10_state.md R27). -/

namespace Sys2Proof.Machine

/-- One step: fetch at `ip` (a failed fetch leaves `ip`), advance `ip`, decode, dispatch. It is enabled only while
`run = Running` (R27); in a terminal state there is no next state. -/
def step (s : State) : Host.Outcome State Fault Refusal :=
  if s.isRunning then
    match codeRead s.ip s with
    | none => raise (.fetchFault s.ip) s
    | some w =>
      match decode w with
      | .unknownOpcode op => raise (.unknownOpcode op) (advanceIp s)
      | .instr i => exec i (advanceIp s)
  else .fault .notRunning

/-- The machine `s` with the instruction whose bits are `w` at the code index `ip` of its code image, padded with
zero words where the image is shorter, and in the run state in which a step is enabled: this stands for the host's
choice of CODE (notes/assumptions/1.md). -/
def State.withFetchWord (s : State) (nbits w : Nat) : State :=
  { s with code := placeWord s.code s.ip.toNat (BitVec.ofNat 32 (w % 2 ^ nbits)), run := .running }

end Sys2Proof.Machine
end

