-- ==== Sys2Proof/Machine/Stack.lean ====
section
/-! DEFINITION. The stack memory controller (spec/20_memory.md R44 to R50). No instruction and no transaction of the
host invokes these on a created machine (R49); they are part of the block. A failure is returned to the caller
and does not change `run` (60_exceptions.md R122). -/

namespace Sys2Proof.Machine

/-- The capacity `create` gives for a request: rounded up to a multiple of 8, in the natural numbers (R44). -/
def capacityFor (req : Word) : Nat := 8 * ((req.toNat + 7) / 8)

/-- `mem[j]`: bytes `8j .. 8j+7` of the byte view (R34, R50). -/
def State.stackWord (s : State) (j : Nat) : Word := BitVec.ofNat 64 (Memory.loadLE s.mem (8 * j) 8)

/-- `mem[j] <- v`. -/
def State.setStackWord (s : State) (j : Nat) (v : Word) : State := s.setMem (Memory.storeLE s.mem (8 * j) v 8)

/-- `push(value) -> bool` (R45). -/
def push (v : Word) (s : State) : Bool × State :=
  if s.sp < s.cap then (true, (s.setStackWord s.sp v).setSp (s.sp + 1)) else (false, s)

/-- `pop() -> value` (R46): decrement first, then read; the word stays in the array. -/
def pop (s : State) : Except ErrorKind (Word × State) :=
  if s.sp = 0 then .error .stackUnderflow else .ok (s.stackWord (s.sp - 1), s.setSp (s.sp - 1))

/-- `set_n(index, value)` (R47): `index` is an absolute word index, valid from 1 to sp - 1. -/
def setN (index : Nat) (v : Word) (s : State) : Except ErrorKind State :=
  if index = 0 ∨ s.sp ≤ index then .error (.invalidIndex index) else .ok (s.setStackWord index v)

/-- `reserve(n) -> bool` (R48): the new words keep what `mem` held. -/
def reserve (n : Nat) (s : State) : Bool × State :=
  if s.sp + n ≤ s.cap then (true, s.setSp (s.sp + n)) else (false, s)

end Sys2Proof.Machine
end

