-- ==== Sys2Proof/Machine/Transactions.lean ====
section
/-! DEFINITION. The other transactions of the block's external interface (spec/00_scope.md R8): `create`, `run`,
`snapshot`; `step` is in Step.lean. -/

namespace Sys2Proof.Machine

/-- What `create` answers: a machine, or `AllocationFailure` and no machine (60_exceptions.md R123). -/
inductive Created where
  | machine (s : State)
  | allocationFailure
deriving DecidableEq, Repr

/-- Byte `k` of a 64-bit word `v`: `v[8k+7 : 8k]` (20_memory.md R34). -/
def byteOfWord (v : Word) (k : Nat) : Byte := v.extractLsb' (8 * k) 8

/-- The first `n` bytes of a memory whose word `j` is `memInit j`. -/
def initialMemory (memInit : Nat → Word) : Nat → Memory
  | 0 => []
  | n + 1 => Memory.writeByte (initialMemory memInit n) n (byteOfWord (memInit (n / 8)) (n % 8))

/-- `create(CODE, STACK_REQ, START_OFFSET)` (70_reset_and_hazards.md R124) with the open parameters
MAX_STACK_WORDS, N_EXT and MEM_INIT as arguments (00_scope.md R4). START_OFFSET is not checked against CODE. -/
def create (code : List InstrWord) (stackReq startOffset : Word) (maxStackWords nExt : Nat)
    (memInit : Nat → Word) : Created :=
  if maxStackWords < capacityFor stackReq then .allocationFailure
  else .machine
    { x := Vector.replicate 16 0
      xr := List.replicate nExt 0
      iret := 0
      sysc := 0
      ip := startOffset
      fp := 0
      sp := 0
      lastCmp := false
      mem := initialMemory memInit (8 * capacityFor stackReq)
      run := .running
      code := code
      cap := capacityFor stackReq }

/-- The terminal value the `run` transaction returns (10_state.md R28). -/
inductive RunResult where
  | halted (kind : HaltKind)
  | faulted (error : ErrorKind)
deriving DecidableEq, Repr

/-- The terminal value of a run state, none while running (R26). -/
def terminalValue : RunState → Option RunResult
  | .running => none
  | .halted k => some (.halted k)
  | .faulted e => some (.faulted e)

/-- At most `n` steps of the `run` transaction (R28): repeat `step` while `run = Running`. -/
def runFor : Nat → State → State
  | 0, s => s
  | n + 1, s =>
    match step s with
    | .next t => runFor n t
    | .fault _ => s
    | .refused _ => s

/-- What the `run` transaction returns within `n` steps, if it returns within them. A program may never end
(R28), so the transaction is bounded by its caller. -/
def runResult (n : Nat) (s : State) : Option RunResult := terminalValue (runFor n s).run

/-- The status of a halt: 0 for every sub-kind (60_exceptions.md R118). -/
def haltStatus (_ : HaltKind) : Nat := 0

/-- The informative numeric fault codes (60_exceptions.md R112). -/
def errorCode : ErrorKind → Nat
  | .invalidRegister _ => 1
  | .unknownOpcode _ => 2
  | .stackOverflow => 3
  | .stackUnderflow => 4
  | .invalidIndex _ => 5
  | .memoryFault _ _ => 6
  | .unsupported _ => 7
  | .allocationFailure => 8
  | .fetchFault _ => 9

/-- The read-only view of the host (10_state.md R29). -/
structure Snapshot where
  ip : Word
  fp : Word
  x : Vector Word 16
  lastCmp : Bool
deriving DecidableEq, Repr

/-- `snapshot` (R29): it exposes `ip`, `fp`, the sixteen reachable registers and the latch, and nothing else. -/
def snapshot (s : State) : Snapshot where
  ip := s.ip
  fp := s.fp
  x := s.x
  lastCmp := s.lastCmp

end Sys2Proof.Machine
end

