-- ==== Sys2Proof/Safety.lean ====
section
/-! DEFINITION. The terms the claims are stated in: the invariant of a machine, what an outcome changes and keeps
(frames), and the spec's rules written over the bits of the instruction word, independently of the decoder and of the
meanings. -/

namespace Sys2Proof.Machine

/-! ### The invariant -/

/-- The fault a machine can be in, with its payload in the range the spec gives it (60_exceptions.md R112, R113):
a step raises five of the nine kinds. -/
def legalError (s : State) : ErrorKind → Prop
  | .invalidRegister sel => 16 ≤ sel.toNat
  | .unknownOpcode op => 21 ≤ op.toNat
  | .unsupported op => op = 10#5 ∨ op = 11#5 ∨ op = 18#5
  | .memoryFault addr n => (n = 1 ∨ n = 2 ∨ n = 4 ∨ n = 8) ∧ 8 * s.cap < addr.toNat + n
  | .fetchFault i => i = s.ip ∧ s.code.length ≤ i.toNat
  | .stackOverflow => False
  | .stackUnderflow => False
  | .invalidIndex _ => False
  | .allocationFailure => False

/-- What holds of every machine `create` makes and every step keeps. -/
structure State.Inv (s : State) : Prop where
  /-- Data memory is in its canonical form. -/
  memCanonical : Memory.wf s.mem = true
  /-- Data memory lists no address outside the data space (20_memory.md R34). -/
  memInside : ∀ c ∈ s.mem, c.1 < 8 * s.cap
  /-- `0 <= sp <= CAP` (10_state.md R22). -/
  stackBound : s.sp ≤ s.cap
  /-- CAP is a multiple of 8 (R24). -/
  capRounded : s.cap % 8 = 0
  /-- CODE_LEN < 2^64 (00_scope.md R4). -/
  codeBound : s.code.length < 2 ^ 64
  /-- A faulted machine is in a fault a step can raise (R113). -/
  faultLegal : ∀ e, s.run = .faulted e → legalError s e

/-- A safe run has met no fault. -/
def State.notFaulted (s : State) : Prop := ∀ e, s.run ≠ .faulted e

/-! ### Frames -/

/-- The next step fetches `w` (10_state.md R27). -/
def State.aboutToRun (s : State) (w : InstrWord) : Prop := s.run = .running ∧ s.code[s.ip.toNat]? = some w

/-- `s` after the fetch advance (R19). -/
def State.fetched (s : State) : State := { s with ip := s.ip + 1 }

/-- The outcome is the fault `e`, and nothing but `run` differs from `s` (60_exceptions.md R114). -/
def faultsFrom (s : State) (e : ErrorKind) (o : Out) : Prop := o = .next { s with run := .faulted e }

/-- The outcome is the halt `k`, and nothing but `run` differs from `s` (60_exceptions.md R118). -/
def haltsFrom (s : State) (k : HaltKind) (o : Out) : Prop := o = .next { s with run := .halted k }

/-- Registers no selector reaches, `sp`, and the parameters, all as in `s`. -/
def hiddenKept (s t : State) : Prop :=
  t.xr = s.xr ∧ t.iret = s.iret ∧ t.sysc = s.sysc ∧ t.sp = s.sp ∧ t.code = s.code ∧ t.cap = s.cap

/-- The outcome is a next state in which slot `d` holds `v` and everything else is as in `s`: the other
slots, `ip`, `fp`, the latch, the run state, every byte of memory, and what `hiddenKept` names. -/
def writesReg (s : State) (d : Fin 16) (v : Word) (o : Out) : Prop :=
  ∃ t, o = .next t ∧ t.reg d = v ∧ (∀ r, r ≠ d → t.reg r = s.reg r) ∧ t.ip = s.ip ∧ t.fp = s.fp ∧
    t.lastCmp = s.lastCmp ∧ t.run = s.run ∧ (∀ a, t.byteAt a = s.byteAt a) ∧ hiddenKept s t

/-- The outcome is a next state in which the latch holds `b` and everything else is as in `s`. -/
def writesLatch (s : State) (b : Bool) (o : Out) : Prop :=
  ∃ t, o = .next t ∧ t.lastCmp = b ∧ (∀ r, t.reg r = s.reg r) ∧ t.ip = s.ip ∧ t.fp = s.fp ∧
    t.run = s.run ∧ (∀ a, t.byteAt a = s.byteAt a) ∧ hiddenKept s t

/-- The outcome is a next state in which `ip` holds `target`, `fp` holds `link` and everything else is as in `s`. -/
def jumpsTo (s : State) (target link : Word) (o : Out) : Prop :=
  ∃ t, o = .next t ∧ t.ip = target ∧ t.fp = link ∧ (∀ r, t.reg r = s.reg r) ∧
    t.lastCmp = s.lastCmp ∧ t.run = s.run ∧ (∀ a, t.byteAt a = s.byteAt a) ∧ hiddenKept s t

/-- The outcome is a next state in which the `n` bytes from `addr` are the low bytes of `v`, least significant
first, every other byte of memory is as in `s`, and so is everything that is not memory. -/
def storesBytes (s : State) (addr n : Nat) (v : Word) (o : Out) : Prop :=
  ∃ t, o = .next t ∧ (∀ k, k < n → t.byteAt (addr + k) = v.extractLsb' (8 * k) 8) ∧
    (∀ a, a < addr ∨ addr + n ≤ a → t.byteAt a = s.byteAt a) ∧ (∀ r, t.reg r = s.reg r) ∧
    t.ip = s.ip ∧ t.fp = s.fp ∧ t.lastCmp = s.lastCmp ∧ t.run = s.run ∧ hiddenKept s t

/-! ### Values, in integer arithmetic -/

/-- The 64-bit value of a sign-extended immediate: its signed reading, modulo 2^64 (00_scope.md R7). -/
def signedValue {n : Nat} (v : BitVec n) : Word := BitVec.ofInt 64 v.toInt

/-- The unsigned value of the `n` bytes from `addr`: the sum of `B(addr + k) * 2^(8k)` (20_memory.md R36). -/
def bytesValue (s : State) (addr n : Nat) : Nat :=
  (Finset.range n).sum fun k => (s.byteAt (addr + k)).toNat * 2 ^ (8 * k)

/-- An `8n`-bit value extended to 64 bits, with sign or with zeros (46_load_store.md R110). -/
def extendedValue (v n : Nat) (signed : Bool) : Word :=
  if signed = true ∧ 2 ^ (8 * n - 1) ≤ v then BitVec.ofInt 64 ((v : Int) - 2 ^ (8 * n)) else BitVec.ofNat 64 v

/-- `cond(cc, a, b)` in integer comparisons (45_compare.md R106). -/
def condTable (cc : BitVec 4) (a b : Word) : Prop :=
  match cc.toNat with
  | 0 => True
  | 1 => a.toNat = b.toNat
  | 2 => a.toNat ≠ b.toNat
  | 3 => a.toInt > b.toInt
  | 4 => a.toInt ≥ b.toInt
  | 5 => a.toInt < b.toInt
  | 6 => a.toInt ≤ b.toInt
  | 7 => a.toNat > b.toNat
  | 8 => a.toNat ≥ b.toNat
  | 9 => a.toNat < b.toNat
  | 10 => a.toNat ≤ b.toNat
  | _ => False

/-- The effective address of a load or store, in integer arithmetic (46_load_store.md R109). -/
def addressOf (base : Word) (off : BitVec 14) : Word := BitVec.ofInt 64 ((base.toNat : Int) + off.toInt)

/-! ### What the computing instructions compute, in integer arithmetic or bit by bit -/

/-- `v = (a + b) mod 2^64` (43_arith.md R93). -/
def sumOf (a b v : Word) : Prop := v.toNat = (a.toNat + b.toNat) % 2 ^ 64
/-- `v = (a - b) mod 2^64` (R94). -/
def differenceOf (a b v : Word) : Prop := (v.toNat : Int) = ((a.toNat : Int) - b.toNat) % 2 ^ 64
/-- `v = (a * b) mod 2^64` (R95). -/
def productOf (a b v : Word) : Prop := v.toNat = (a.toNat * b.toNat) % 2 ^ 64
/-- `v = a & b` (44_bitwise_shift.md R99). -/
def conjunctionOf (a b v : Word) : Prop := ∀ k, k < 64 → v.getLsbD k = (a.getLsbD k && b.getLsbD k)
/-- `v = a | b` (R100). -/
def disjunctionOf (a b v : Word) : Prop := ∀ k, k < 64 → v.getLsbD k = (a.getLsbD k || b.getLsbD k)
/-- `v = a ^ b` (R101). -/
def exclusiveOrOf (a b v : Word) : Prop := ∀ k, k < 64 → v.getLsbD k = (a.getLsbD k != b.getLsbD k)
/-- `v = (a << n) mod 2^64`, with `n = u(b) mod 64` (R102, R105). -/
def shiftedLeft (a b v : Word) : Prop := v.toNat = a.toNat * 2 ^ (b.toNat % 64) % 2 ^ 64
/-- `v = floor(u(a) / 2^n)`, with `n = u(b) mod 64` (R103, R105). -/
def shiftedRight (a b v : Word) : Prop := v.toNat = a.toNat / 2 ^ (b.toNat % 64)
/-- `v = floor(s(a) / 2^n) mod 2^64`, with `n = u(b) mod 64` (R104, R105). -/
def shiftedRightSigned (a b v : Word) : Prop := v.toInt = a.toInt / 2 ^ (b.toNat % 64)

/-- The two forms of a computing instruction run to completion: on valid selectors they write the result to `dst`
and nothing else. -/
def aluFormsComplete (P : Word → Word → Word → Prop) (immForm : Sel → Sel → BitVec 16 → Instr)
    (regForm : Sel → Sel → Sel → Instr) : Prop :=
  ∀ (s : State) (dst src : Sel) (d a : Fin 16), dst.toNat = d.val → src.toNat = a.val →
    (∀ imm, ∃ v, P (s.reg a) (signedValue imm) v ∧ writesReg s d v (exec (immForm dst src imm) s)) ∧
    (∀ (src2 : Sel) (b : Fin 16), src2.toNat = b.val →
      ∃ v, P (s.reg a) (s.reg b) v ∧ writesReg s d v (exec (regForm dst src src2) s))

/-! ### The rules of the instruction files over the bits of the word -/

/-- MVNOT, MVNEG, MOV (41_move.md R86 to R88), with `f` what the rule computes from the operand. -/
def moveRule (f : Word → Word) (s : State) (w : InstrWord) : Prop :=
  let dst := w.extractLsb' 22 5
  let src := w.extractLsb' 16 5
  (16 ≤ dst.toNat → faultsFrom s.fetched (.invalidRegister dst) (step s)) ∧
  ∀ d : Fin 16, dst.toNat = d.val →
    (w.getLsbD 21 = false → writesReg s.fetched d (f (signedValue (w.extractLsb' 0 21))) (step s)) ∧
    (w.getLsbD 21 = true → 16 ≤ src.toNat → faultsFrom s.fetched (.invalidRegister src) (step s)) ∧
    (w.getLsbD 21 = true → ∀ r : Fin 16, src.toNat = r.val →
      writesReg s.fetched d (f (s.reg r)) (step s))

/-- MVA (41_move.md R89), with `v` the whole 64-bit operand. -/
def mvaRule (s : State) (w : InstrWord) : Prop :=
  let dst := w.extractLsb' 22 5
  let src := w.extractLsb' 13 5
  let quad := (w.extractLsb' 20 2).toNat
  let result (old v : Word) : Word := old ||| BitVec.ofNat 64 (v.toNat * 2 ^ (16 * quad))
  (16 ≤ dst.toNat → faultsFrom s.fetched (.invalidRegister dst) (step s)) ∧
  ∀ d : Fin 16, dst.toNat = d.val →
    (w.getLsbD 19 = false →
      writesReg s.fetched d (result (s.reg d) (signedValue (w.extractLsb' 0 18))) (step s)) ∧
    (w.getLsbD 19 = true → 16 ≤ src.toNat → faultsFrom s.fetched (.invalidRegister src) (step s)) ∧
    (w.getLsbD 19 = true → ∀ r : Fin 16, src.toNat = r.val →
      writesReg s.fetched d (result (s.reg d) (s.reg r)) (step s))

/-- BR (42_branch_lea.md R90). -/
def brRule (s : State) (w : InstrWord) : Prop :=
  let reg := w.extractLsb' 20 5
  let link := if w.getLsbD 26 then s.ip + 1 else s.fp
  (w.getLsbD 25 = false →
    jumpsTo s.fetched (BitVec.ofInt 64 (((s.ip + 1).toNat : Int) + (w.extractLsb' 0 25).toInt)) link (step s)) ∧
  (w.getLsbD 25 = true → 16 ≤ reg.toNat → faultsFrom s.fetched (.invalidRegister reg) (step s)) ∧
  (w.getLsbD 25 = true → ∀ r : Fin 16, reg.toNat = r.val → jumpsTo s.fetched (s.reg r) link (step s))

/-- LEA (42_branch_lea.md R91). -/
def leaRule (s : State) (w : InstrWord) : Prop :=
  let dst := w.extractLsb' 22 5
  (16 ≤ dst.toNat → faultsFrom s.fetched (.invalidRegister dst) (step s)) ∧
  ∀ d : Fin 16, dst.toNat = d.val →
    writesReg s.fetched d (BitVec.ofInt 64 (((s.ip + 1).toNat : Int) + (w.extractLsb' 0 22).toInt)) (step s)

/-- The instructions of format R (43_arith.md, 44_bitwise_shift.md), with `P a b v` what the rule says of the
result `v` on operands `a` and `b`. -/
def aluRule (P : Word → Word → Word → Prop) (s : State) (w : InstrWord) : Prop :=
  let dst := w.extractLsb' 22 5
  let src := w.extractLsb' 17 5
  let src2 := w.extractLsb' 11 5
  (16 ≤ dst.toNat → faultsFrom s.fetched (.invalidRegister dst) (step s)) ∧
  ∀ d : Fin 16, dst.toNat = d.val →
    (16 ≤ src.toNat → faultsFrom s.fetched (.invalidRegister src) (step s)) ∧
    ∀ a : Fin 16, src.toNat = a.val →
      (w.getLsbD 16 = false → ∃ v, P (s.reg a) (signedValue (w.extractLsb' 0 16)) v ∧
        writesReg s.fetched d v (step s)) ∧
      (w.getLsbD 16 = true → 16 ≤ src2.toNat → faultsFrom s.fetched (.invalidRegister src2) (step s)) ∧
      (w.getLsbD 16 = true → ∀ b : Fin 16, src2.toNat = b.val → ∃ v, P (s.reg a) (s.reg b) v ∧
        writesReg s.fetched d v (step s))

/-- CMP (45_compare.md R107). -/
def cmpRule (s : State) (w : InstrWord) : Prop :=
  let lhs := w.extractLsb' 17 5
  let rhs := w.extractLsb' 12 5
  let cc := w.extractLsb' 23 4
  (16 ≤ lhs.toNat → faultsFrom s.fetched (.invalidRegister lhs) (step s)) ∧
  ∀ l : Fin 16, lhs.toNat = l.val →
    (16 ≤ rhs.toNat → faultsFrom s.fetched (.invalidRegister rhs) (step s)) ∧
    ∀ r : Fin 16, rhs.toNat = r.val →
      (11 ≤ cc.toNat → faultsFrom s.fetched (.unsupported 18#5) (step s)) ∧
      (cc.toNat ≤ 10 → ∃ b, (b = true ↔ condTable cc (s.reg l) (s.reg r)) ∧
        writesLatch s.fetched b (step s))

/-- CSET (45_compare.md R108). -/
def csetRule (s : State) (w : InstrWord) : Prop :=
  let lhs := w.extractLsb' 17 5
  let rhs := w.extractLsb' 12 5
  let dst := w.extractLsb' 7 5
  let cc := w.extractLsb' 23 4
  (16 ≤ lhs.toNat → faultsFrom s.fetched (.invalidRegister lhs) (step s)) ∧
  ∀ l : Fin 16, lhs.toNat = l.val →
    (16 ≤ rhs.toNat → faultsFrom s.fetched (.invalidRegister rhs) (step s)) ∧
    ∀ r : Fin 16, rhs.toNat = r.val →
      (16 ≤ dst.toNat → faultsFrom s.fetched (.invalidRegister dst) (step s)) ∧
      ∀ d : Fin 16, dst.toNat = d.val →
        (11 ≤ cc.toNat → faultsFrom s.fetched (.unsupported 18#5) (step s)) ∧
        (cc.toNat ≤ 10 →
          (condTable cc (s.reg l) (s.reg r) → writesReg s.fetched d 1 (step s)) ∧
          (¬ condTable cc (s.reg l) (s.reg r) → writesReg s.fetched d 0 (step s)))

/-- LDR (46_load_store.md R109, R110). -/
def ldrRule (s : State) (w : InstrWord) : Prop :=
  let rt := w.extractLsb' 19 5
  let base := w.extractLsb' 14 5
  let n := 2 ^ (w.extractLsb' 25 2).toNat
  (16 ≤ rt.toNat → faultsFrom s.fetched (.invalidRegister rt) (step s)) ∧
  ∀ t : Fin 16, rt.toNat = t.val →
    (16 ≤ base.toNat → faultsFrom s.fetched (.invalidRegister base) (step s)) ∧
    ∀ b : Fin 16, base.toNat = b.val →
      let addr := addressOf (s.reg b) (w.extractLsb' 0 14)
      (8 * s.cap < addr.toNat + n → faultsFrom s.fetched (.memoryFault addr n) (step s)) ∧
      (addr.toNat + n ≤ 8 * s.cap →
        writesReg s.fetched t (extendedValue (bytesValue s addr.toNat n) n (w.getLsbD 24)) (step s))

/-- STR (46_load_store.md R109, R111). -/
def strRule (s : State) (w : InstrWord) : Prop :=
  let rt := w.extractLsb' 19 5
  let base := w.extractLsb' 14 5
  let n := 2 ^ (w.extractLsb' 25 2).toNat
  (16 ≤ rt.toNat → faultsFrom s.fetched (.invalidRegister rt) (step s)) ∧
  ∀ t : Fin 16, rt.toNat = t.val →
    (16 ≤ base.toNat → faultsFrom s.fetched (.invalidRegister base) (step s)) ∧
    ∀ b : Fin 16, base.toNat = b.val →
      let addr := addressOf (s.reg b) (w.extractLsb' 0 14)
      (8 * s.cap < addr.toNat + n → faultsFrom s.fetched (.memoryFault addr n) (step s)) ∧
      (addr.toNat + n ≤ 8 * s.cap → storesBytes s.fetched addr.toNat n (s.reg t) (step s))

/-! ### Fault priority over the bits of the word -/

/-- The register fields the form of a word defines, most significant first (30_encoding.md R74). -/
def definedSelectors (w : InstrWord) : List Sel :=
  let op := (w.extractLsb' 27 5).toNat
  let whenSet (i lo : Nat) : List Sel := if w.getLsbD i then [w.extractLsb' lo 5] else []
  if 1 ≤ op ∧ op ≤ 3 then w.extractLsb' 22 5 :: whenSet 21 16
  else if op = 4 then w.extractLsb' 22 5 :: whenSet 19 13
  else if op = 5 then whenSet 25 20
  else if op = 6 then [w.extractLsb' 22 5]
  else if (7 ≤ op ∧ op ≤ 9) ∨ (12 ≤ op ∧ op ≤ 17) then w.extractLsb' 22 5 :: w.extractLsb' 17 5 :: whenSet 16 11
  else if op = 18 then w.extractLsb' 17 5 :: w.extractLsb' 12 5 :: whenSet 22 7
  else if op = 19 ∨ op = 20 then [w.extractLsb' 19 5, w.extractLsb' 14 5]
  else []

/-- The first fault that applies to the next step, in the order of 60_exceptions.md R116. -/
def priorityFault (s : State) : Option ErrorKind :=
  match s.code[s.ip.toNat]? with
  | none => some (.fetchFault s.ip)
  | some w =>
    let op := w.extractLsb' 27 5
    let n := 2 ^ (w.extractLsb' 25 2).toNat
    let addr := addressOf (s.x.toList.getD (w.extractLsb' 14 5).toNat 0) (w.extractLsb' 0 14)
    if 21 ≤ op.toNat then some (.unknownOpcode op)
    else if op = 10#5 ∨ op = 11#5 then some (.unsupported op)
    else
      match (definedSelectors w).find? (fun sel => decide (16 ≤ sel.toNat)) with
      | some sel => some (.invalidRegister sel)
      | none =>
        if op = 18#5 ∧ 11 ≤ (w.extractLsb' 23 4).toNat then some (.unsupported 18#5)
        else if (op = 19#5 ∨ op = 20#5) ∧ 8 * s.cap < addr.toNat + n then some (.memoryFault addr n)
        else none

/-! ### Runs and the stack controller -/

/-- What every later step can depend on: the register slots, `ip`, data memory, the run state and the parameters.
`fp`, the latch, `sp` and the unreachable registers are left out. -/
def agree (s t : State) : Prop :=
  s.x = t.x ∧ s.ip = t.ip ∧ s.mem = t.mem ∧ s.run = t.run ∧ s.code = t.code ∧ s.cap = t.cap

/-- Push a list of values, first to last. -/
def pushAll : List Word → State → State
  | [], s => s
  | v :: vs, s => pushAll vs (push v s).2

/-- Pop `n` values. -/
def popAll : Nat → State → Except ErrorKind (List Word × State)
  | 0, s => .ok ([], s)
  | n + 1, s => do
    let (v, t) ← pop s
    let (vs, u) ← popAll n t
    return (v :: vs, u)

end Sys2Proof.Machine
end

