-- ==== Sys2Proof/Certificates/Slice0/Obligations.lean ====
section
/-! DEFINITION. The statements for the provers. `step` statements are over the bits of the fetched word and the terms of
Safety.lean; `exec` statements say of each instruction form that it completes, with its result and its frame. -/

open Sys2Proof Sys2Proof.Machine

/-! ### Encoding -/

/-- Decoding the word of an instruction gives it back, for every instruction with every operand value, ill-formed
ones too. -/
def Obligations.DecodeOfEncodeIsIdentity : Prop :=
  ∀ i : Instr, decode (encode i) = .instr i

/-- R73: ignored bits may hold any value: two words that differ only in bits ignored by the form of the one decode alike,
and a step that fetches the one does what a step that fetches the other does. -/
def Obligations.IgnoredBitsChangeNothing : Prop :=
  ∀ (w w' : InstrWord) (i : Instr), decode w = .instr i →
    w &&& ~~~i.ignoredBits = w' &&& ~~~i.ignoredBits →
    decode w' = .instr i ∧
    ∀ (s t : State) (c : List InstrWord), s.aboutToRun w → State.aboutToRun { s with code := c } w' →
      step s = .next t → step { s with code := c } = .next { t with code := c }

/-- R70, R71 against the table: what a word decodes to has the word in its row of the opcode table, and every word of
a row decodes to an instruction of that row. -/
def Obligations.DecoderAgreesWithOpcodeTable : Prop :=
  (∀ (w : InstrWord) (i : Instr), decode w = .instr i → w &&& i.tableBits.2 = i.tableBits.1) ∧
  (∀ (w : InstrWord) (i : Instr), w &&& i.tableBits.2 = i.tableBits.1 →
    ∃ j, decode w = .instr j ∧ j.tableBits = i.tableBits)

/-- R72: a word whose opcode is 21..31 raises `UnknownOpcode`, whatever its other bits hold. -/
def Obligations.UnknownOpcodeFaults : Prop :=
  ∀ (s : State) (w : InstrWord), s.aboutToRun w → 21 ≤ (w.extractLsb' 27 5).toNat →
    faultsFrom s.fetched (.unknownOpcode (w.extractLsb' 27 5)) (step s)

/-- Words of the spec's worked examples decode to the instructions they stand for (95_test_vectors.md). -/
def Obligations.SpecExampleWordsDecode : Prop :=
  decode 0x18000007#32 = .instr (.movImm 0 7) ∧
  decode 0x38810800#32 = .instr (.addReg 2 0 1) ∧
  decode 0x2C000001#32 = .instr (.brImm true 1) ∧
  decode 0x20282000#32 = .instr (.mvaReg 0 2 1) ∧
  decode 0x91424100#32 = .instr (.cset 2 1 4 2) ∧
  decode 0x9B184002#32 = .instr (.ldr .b16 true 3 1 2) ∧
  decode 0xA0107FFF#32 = .instr (.str .b8 2 1 0x3FFF) ∧
  decode 0x06000000#32 = .instr .call ∧
  decode 0xF8000000#32 = .unknownOpcode 31

/-- R58: the extender, in arithmetic. The low `p + 1` bits of `v` are read as signed or as unsigned; an immediate of any width
the instruction set has keeps its signed value (R60). -/
def Obligations.ExtenderKeepsTheValueOfTheField : Prop :=
  (∀ (v : Word) (p : Nat) (signed : Bool), p < 64 →
    (signed = true → 2 ^ p ≤ v.toNat % 2 ^ (p + 1) →
      (ext v p signed).toInt = (v.toNat % 2 ^ (p + 1) : Nat) - 2 ^ (p + 1)) ∧
    (¬ (signed = true ∧ 2 ^ p ≤ v.toNat % 2 ^ (p + 1)) →
      (ext v p signed).toNat = v.toNat % 2 ^ (p + 1))) ∧
  (∀ (n : Nat) (v : BitVec n), 0 < n → n ≤ 64 → (sext v).toInt = v.toInt)

/-! ### The step -/

/-- R27: a step whose fetched word decodes to an instruction runs that instruction, with `ip` already advanced. -/
def Obligations.StepRunsDecodedInstruction : Prop :=
  ∀ (s : State) (w : InstrWord) (i : Instr), s.aboutToRun w → decode w = .instr i →
    step s = exec i { s with ip := s.ip + 1 }

/-- R43: `CodeRead(i)` answers `CODE[i]` exactly below CODE_LEN; a step that fetches at or beyond it raises `FetchFault`
and leaves everything but `run`, `ip` too. -/
def Obligations.FetchOutsideTheCodeFaults : Prop :=
  ∀ (s : State) (i : Word),
    (∀ h : i.toNat < s.code.length, codeRead i s = some s.code[i.toNat]) ∧
    (s.code.length ≤ i.toNat → codeRead i s = none ∧
      (s.run = .running → i = s.ip → faultsFrom s (.fetchFault i) (step s)))

/-- R27: a step is enabled exactly while the machine is running, and then it always has an outcome, which is a next
state. That the model names the disabled step `notRunning` is its own choice (notes/assumptions/7.md). -/
def Obligations.StepIsEnabledExactlyWhileRunning : Prop :=
  ∀ s : State, (s.run = .running → ∃ t, step s = .next t) ∧ (s.run ≠ .running → step s = .fault .notRunning)

/-! ### The rules of the instruction files, over the bits of the fetched word -/

/-- The HALT family (40_halt_family.md): a word with opcode 0 ends the run with the sub-kind of `w[26:25]`, whatever its low
25 bits hold; nothing but `run` and the fetch advance changes, and the status is 0. Each form completes with that
effect. That the step of the terminal state so reached answers `notRunning` is the model's own name for the missing
step (notes/assumptions/7.md). -/
def Obligations.HaltFamilyEndsTheRun : Prop :=
  (∀ (s : State) (w : InstrWord), s.aboutToRun w → w.extractLsb' 27 5 = 0#5 →
    (w.extractLsb' 25 2 = 0#2 → haltsFrom s.fetched .halt (step s)) ∧
    (w.extractLsb' 25 2 = 1#2 → haltsFrom s.fetched .ret (step s)) ∧
    (w.extractLsb' 25 2 = 2#2 → haltsFrom s.fetched .syscall (step s)) ∧
    (w.extractLsb' 25 2 = 3#2 → haltsFrom s.fetched .call (step s)) ∧
    ∃ t, step s = .next t ∧ step t = .fault .notRunning) ∧
  (∀ s : State, haltsFrom s .halt (exec .halt s) ∧ haltsFrom s .ret (exec .ret s) ∧
    haltsFrom s .syscall (exec .syscall s) ∧ haltsFrom s .call (exec .call s)) ∧
  (∀ k, haltStatus k = 0)

/-- R86, R87, R88: MVNOT, MVNEG and MOV in both forms, with their faults. -/
def Obligations.MoveInstructionsFollowTheirRules : Prop :=
  ∀ (s : State) (w : InstrWord), s.aboutToRun w →
    (w.extractLsb' 27 5 = 1#5 → moveRule (fun v => BitVec.ofNat 64 (2 ^ 64 - 1 - v.toNat)) s w) ∧
    (w.extractLsb' 27 5 = 2#5 → moveRule (fun v => BitVec.ofInt 64 (0 - v.toInt)) s w) ∧
    (w.extractLsb' 27 5 = 3#5 → moveRule (fun v => v) s w)

/-- R89: MVA ORs the shifted 64-bit operand into its destination, in both forms, with its faults. -/
def Obligations.MvaFollowsItsRule : Prop :=
  ∀ (s : State) (w : InstrWord), s.aboutToRun w → w.extractLsb' 27 5 = 4#5 → mvaRule s w

/-- R90: BR in both forms, with and without link, with its fault. -/
def Obligations.BrFollowsItsRule : Prop :=
  ∀ (s : State) (w : InstrWord), s.aboutToRun w → w.extractLsb' 27 5 = 5#5 → brRule s w

/-- R91: LEA, with its fault. -/
def Obligations.LeaFollowsItsRule : Prop :=
  ∀ (s : State) (w : InstrWord), s.aboutToRun w → w.extractLsb' 27 5 = 6#5 → leaRule s w

/-- R93, R94, R95: ADD, SUB and MULT modulo 2^64 in both forms, with their faults. -/
def Obligations.ArithmeticFollowsItsRules : Prop :=
  ∀ (s : State) (w : InstrWord), s.aboutToRun w →
    (w.extractLsb' 27 5 = 7#5 → aluRule sumOf s w) ∧
    (w.extractLsb' 27 5 = 8#5 → aluRule differenceOf s w) ∧
    (w.extractLsb' 27 5 = 9#5 → aluRule productOf s w)

/-- R96, R97: DIV and MOD raise `Unsupported` whatever their low 27 bits hold, and so do the forms themselves. -/
def Obligations.DivAndModAreUnsupported : Prop :=
  (∀ (s : State) (w : InstrWord), s.aboutToRun w →
    (w.extractLsb' 27 5 = 10#5 → faultsFrom s.fetched (.unsupported 10#5) (step s)) ∧
    (w.extractLsb' 27 5 = 11#5 → faultsFrom s.fetched (.unsupported 11#5) (step s))) ∧
  (∀ s : State, faultsFrom s (.unsupported 10#5) (exec .div s) ∧ faultsFrom s (.unsupported 11#5) (exec .mod s))

/-- R99, R100, R101: AND, OR and XOR bit by bit in both forms, with their faults. -/
def Obligations.BitwiseFollowsItsRules : Prop :=
  ∀ (s : State) (w : InstrWord), s.aboutToRun w →
    (w.extractLsb' 27 5 = 12#5 → aluRule conjunctionOf s w) ∧
    (w.extractLsb' 27 5 = 13#5 → aluRule disjunctionOf s w) ∧
    (w.extractLsb' 27 5 = 14#5 → aluRule exclusiveOrOf s w)

/-- R102 to R105: LSL, LSR and ASR by the operand modulo 64 in both forms, with their faults. -/
def Obligations.ShiftsFollowTheirRules : Prop :=
  ∀ (s : State) (w : InstrWord), s.aboutToRun w →
    (w.extractLsb' 27 5 = 15#5 → aluRule shiftedLeft s w) ∧
    (w.extractLsb' 27 5 = 16#5 → aluRule shiftedRight s w) ∧
    (w.extractLsb' 27 5 = 17#5 → aluRule shiftedRightSigned s w)

/-- R107: CMP writes the latch, with its faults in their order. -/
def Obligations.CmpFollowsItsRule : Prop :=
  ∀ (s : State) (w : InstrWord), s.aboutToRun w → w.extractLsb' 27 5 = 18#5 → w.getLsbD 22 = false → cmpRule s w

/-- R108: CSET writes 0 or 1 to a register and not the latch, with its faults in their order. -/
def Obligations.CsetFollowsItsRule : Prop :=
  ∀ (s : State) (w : InstrWord), s.aboutToRun w → w.extractLsb' 27 5 = 18#5 → w.getLsbD 22 = true → csetRule s w

/-- R109, R110: LDR in every size and extension, with its faults in their order. -/
def Obligations.LdrFollowsItsRule : Prop :=
  ∀ (s : State) (w : InstrWord), s.aboutToRun w → w.extractLsb' 27 5 = 19#5 → ldrRule s w

/-- R109, R111: STR in every size, with its faults in their order; every byte outside the stored ones is kept. -/
def Obligations.StrFollowsItsRule : Prop :=
  ∀ (s : State) (w : InstrWord), s.aboutToRun w → w.extractLsb' 27 5 = 20#5 → strRule s w

/-- R106: the eleven conditions are the integer comparisons of the table, a reserved code fails, and a signed condition
differs from its unsigned counterpart exactly when the sign bits of the operands differ. -/
def Obligations.ConditionsAreIntegerComparisons : Prop :=
  ∀ a b : Word,
    (∀ cc : BitVec 4, cc.toNat ≤ 10 → ∃ c, evalCond cc a b = .ok c ∧ (c = true ↔ condTable cc a b)) ∧
    (∀ cc : BitVec 4, 11 ≤ cc.toNat → evalCond cc a b = .error (.unsupported 18#5)) ∧
    (condHolds .sup a b ≠ condHolds .unsignedSup a b ↔ a.msb ≠ b.msb) ∧
    (condHolds .supeq a b ≠ condHolds .unsignedSupeq a b ↔ a.msb ≠ b.msb) ∧
    (condHolds .inf a b ≠ condHolds .unsignedInf a b ↔ a.msb ≠ b.msb) ∧
    (condHolds .infeq a b ≠ condHolds .unsignedInfeq a b ↔ a.msb ≠ b.msb)

/-! ### Every form completes, with its result and its frame -/

/-- The move forms and LEA, on valid selectors, write their result to `dst` and nothing else. -/
def Obligations.MoveAndLeaFormsComplete : Prop :=
  ∀ (s : State) (dst : Sel) (d : Fin 16), dst.toNat = d.val →
    (∀ imm, writesReg s d (BitVec.ofNat 64 (2 ^ 64 - 1 - (signedValue imm).toNat)) (exec (.mvnotImm dst imm) s)) ∧
    (∀ imm, writesReg s d (BitVec.ofInt 64 (0 - imm.toInt)) (exec (.mvnegImm dst imm) s)) ∧
    (∀ imm, writesReg s d (signedValue imm) (exec (.movImm dst imm) s)) ∧
    (∀ quad imm, writesReg s d
      (s.reg d ||| BitVec.ofNat 64 ((signedValue imm).toNat * 2 ^ (16 * quad.toNat))) (exec (.mvaImm dst quad imm) s)) ∧
    (∀ imm, writesReg s d (BitVec.ofInt 64 ((s.ip.toNat : Int) + imm.toInt)) (exec (.lea dst imm) s)) ∧
    (∀ (src : Sel) (r : Fin 16), src.toNat = r.val →
      writesReg s d (BitVec.ofNat 64 (2 ^ 64 - 1 - (s.reg r).toNat)) (exec (.mvnotReg dst src) s) ∧
      writesReg s d (BitVec.ofInt 64 (0 - (s.reg r).toInt)) (exec (.mvnegReg dst src) s) ∧
      writesReg s d (s.reg r) (exec (.movReg dst src) s) ∧
      ∀ quad, writesReg s d
        (s.reg d ||| BitVec.ofNat 64 ((s.reg r).toNat * 2 ^ (16 * quad.toNat))) (exec (.mvaReg dst quad src) s))

/-- The eighteen forms of ADD, SUB, MULT, AND, OR, XOR, LSL, LSR, ASR, on valid selectors, write their result to `dst`
and nothing else. -/
def Obligations.AluFormsComplete : Prop :=
  aluFormsComplete sumOf .addImm .addReg ∧
  aluFormsComplete differenceOf .subImm .subReg ∧
  aluFormsComplete productOf .multImm .multReg ∧
  aluFormsComplete conjunctionOf .andImm .andReg ∧
  aluFormsComplete disjunctionOf .orImm .orReg ∧
  aluFormsComplete exclusiveOrOf .xorImm .xorReg ∧
  aluFormsComplete shiftedLeft .lslImm .lslReg ∧
  aluFormsComplete shiftedRight .lsrImm .lsrReg ∧
  aluFormsComplete shiftedRightSigned .asrImm .asrReg

/-- BR in both forms: `ip` is the target, `fp` the return index when the link bit is set, and nothing else changes. -/
def Obligations.BranchFormsComplete : Prop :=
  ∀ (s : State) (link : Bool),
    (∀ imm, jumpsTo s (BitVec.ofInt 64 ((s.ip.toNat : Int) + imm.toInt)) (if link then s.ip else s.fp)
      (exec (.brImm link imm) s)) ∧
    (∀ (reg : Sel) (r : Fin 16), reg.toNat = r.val →
      jumpsTo s (s.reg r) (if link then s.ip else s.fp) (exec (.brReg link reg) s))

/-- CMP and CSET, on valid selectors and a defined condition: CMP writes the latch alone, CSET one register alone. -/
def Obligations.CompareFormsComplete : Prop :=
  ∀ (s : State) (cc : BitVec 4) (lhs rhs : Sel) (l r : Fin 16), cc.toNat ≤ 10 → lhs.toNat = l.val →
    rhs.toNat = r.val →
    (∃ b, (b = true ↔ condTable cc (s.reg l) (s.reg r)) ∧ writesLatch s b (exec (.cmp cc lhs rhs) s)) ∧
    ∀ (dst : Sel) (d : Fin 16), dst.toNat = d.val →
      ∃ v, (condTable cc (s.reg l) (s.reg r) → v = 1) ∧ (¬ condTable cc (s.reg l) (s.reg r) → v = 0) ∧
        writesReg s d v (exec (.cset cc lhs rhs dst) s)

/-- LDR and STR, on valid selectors and an access inside the data space, at the model's effective address, which is the
address of R109: LDR writes one register alone; STR changes exactly the stored bytes. -/
def Obligations.LoadAndStoreFormsComplete : Prop :=
  ∀ (s : State) (ds : DataSize) (rt base : Sel) (off : BitVec 14) (t b : Fin 16), rt.toNat = t.val →
    base.toNat = b.val →
    effectiveAddress b off s = addressOf (s.reg b) off ∧
    ((effectiveAddress b off s).toNat + sizeBytes ds ≤ 8 * s.cap →
      (∀ sx, writesReg s t
        (extendedValue (bytesValue s (effectiveAddress b off s).toNat (sizeBytes ds)) (sizeBytes ds) sx)
        (exec (.ldr ds sx rt base off) s)) ∧
      storesBytes s (effectiveAddress b off s).toNat (sizeBytes ds) (s.reg t) (exec (.str ds rt base off) s))

/-! ### The whole machine -/

/-- Every step keeps the invariant. -/
def Obligations.StepKeepsInvariant : Prop :=
  ∀ s t : State, s.Inv → step s = .next t → t.Inv

/-- The machine after reset meets the invariant. The values of CODE, START_OFFSET, STACK_REQ, N_EXT and MEM_INIT at
`State.reset` are the model's choices (notes/assumptions/1.md to 5.md). -/
def Obligations.ResetMeetsInvariant : Prop := State.reset.Inv

/-- R124, R30, R44: `create` fails exactly above MAX_STACK_WORDS, and otherwise gives a running machine with the rounded
capacity, the memory MEM_INIT and everything else at its reset value; it meets the invariant. The zero values
are the spec's decision D19. -/
def Obligations.CreateBuildsTheResetMachine : Prop :=
  ∀ (code : List InstrWord) (req start : Word) (maxWords nExt : Nat) (memInit : Nat → Word),
    ∃ cap : Nat, cap % 8 = 0 ∧ req.toNat ≤ cap ∧ cap < req.toNat + 8 ∧
      (maxWords < cap → create code req start maxWords nExt memInit = .allocationFailure) ∧
      (cap ≤ maxWords → ∃ s, create code req start maxWords nExt memInit = .machine s ∧
        (∀ r, s.reg r = 0) ∧ s.xr = List.replicate nExt 0 ∧ s.iret = 0 ∧ s.sysc = 0 ∧ s.ip = start ∧
        s.fp = 0 ∧ s.sp = 0 ∧ s.lastCmp = false ∧ s.run = .running ∧ s.code = code ∧ s.cap = cap ∧
        (∀ j, j < cap → s.stackWord j = memInit j) ∧ (code.length < 2 ^ 64 → s.Inv))

/-- R114: a step that faults changes nothing but `run` and the fetch advance; a failed fetch does not advance `ip`. -/
def Obligations.FaultKeepsEverythingElse : Prop :=
  ∀ (s t : State) (e : ErrorKind), step s = .next t → t.run = .faulted e →
    ((∃ i, e = .fetchFault i) → t = { s with run := .faulted e }) ∧
    ((¬ ∃ i, e = .fetchFault i) → t = { s with ip := s.ip + 1, run := .faulted e })

/-- R116: a step faults exactly when some fault applies, and with the first that applies in the order of the rule. -/
def Obligations.FirstApplicableFaultIsRaised : Prop :=
  ∀ s t : State, step s = .next t → ∀ e, t.run = .faulted e ↔ priorityFault s = some e

/-- R20: where each step leaves `ip`. -/
def Obligations.IpAfterAStep : Prop :=
  ∀ s t : State, step s = .next t →
    (s.code.length ≤ s.ip.toNat → t.ip = s.ip) ∧
    ∀ w, s.code[s.ip.toNat]? = some w →
      ((w.extractLsb' 27 5 ≠ 5#5 ∨ (∃ e, t.run = .faulted e)) → t.ip = s.ip + 1) ∧
      (w.extractLsb' 27 5 = 5#5 → w.getLsbD 25 = false →
        t.ip = BitVec.ofInt 64 (((s.ip + 1).toNat : Int) + (w.extractLsb' 0 25).toInt)) ∧
      (w.extractLsb' 27 5 = 5#5 → w.getLsbD 25 = true → ∀ r : Fin 16, (w.extractLsb' 20 5).toNat = r.val →
        t.ip = s.reg r)

/-- The table of R11: who writes `fp` and the latch, and that no step writes `sp`, the unreachable registers, the code or the
capacity. -/
def Obligations.ControlStateHasItsWriters : Prop :=
  ∀ s t : State, step s = .next t →
    hiddenKept s t ∧
    (t.fp ≠ s.fp → ∃ w, s.aboutToRun w ∧ w.extractLsb' 27 5 = 5#5 ∧ w.getLsbD 26 = true ∧ t.fp = s.ip + 1) ∧
    (t.lastCmp ≠ s.lastCmp → ∃ w, s.aboutToRun w ∧ w.extractLsb' 27 5 = 18#5 ∧ w.getLsbD 22 = false)

/-- Memory is written by STR alone, and only in the bytes of its access; no step writes the code (R54). -/
def Obligations.OnlyStrWritesMemory : Prop :=
  ∀ s t : State, step s = .next t → t.code = s.code ∧
    ∀ a, t.byteAt a ≠ s.byteAt a → ∃ w, ∃ b : Fin 16, s.aboutToRun w ∧ w.extractLsb' 27 5 = 20#5 ∧
      (w.extractLsb' 14 5).toNat = b.val ∧
      (addressOf (s.reg b) (w.extractLsb' 0 14)).toNat ≤ a ∧
      a < (addressOf (s.reg b) (w.extractLsb' 0 14)).toNat + 2 ^ (w.extractLsb' 25 2).toNat ∧ a < 8 * s.cap

/-- R16: an instruction writes at most one register slot, and none if it faults or halts. -/
def Obligations.AtMostOneRegisterIsWritten : Prop :=
  ∀ s t : State, step s = .next t →
    (∃ d : Fin 16, ∀ r, r ≠ d → t.reg r = s.reg r) ∧ (t.run ≠ .running → ∀ r, t.reg r = s.reg r)

/-- R17, R21, R22, R23: no instruction reads the unreachable registers, `sp`, `fp` or the latch: two machines that differ only
in these run alike for any number of steps and return the same result. -/
def Obligations.UnreadStateNeverMatters : Prop :=
  ∀ (n : Nat) (s t : State), agree s t → agree (runFor n s) (runFor n t) ∧ runResult n s = runResult n t

/-- R129: a step ends the run normally exactly when the fetched word has opcode 0. -/
def Obligations.HaltsExactlyOnOpcodeZero : Prop :=
  ∀ s t : State, step s = .next t →
    ((∃ k, t.run = .halted k) ↔ ∃ w, s.aboutToRun w ∧ w.extractLsb' 27 5 = 0#5)

/-- R76: an ill-formed instruction always faults; a well-formed one other than DIV and MOD faults only if it is LDR or
STR, with `MemoryFault`. -/
def Obligations.OnlyFaultingEncodingsFault : Prop :=
  ∀ (i : Instr) (s t : State), s.run = .running → exec i s = .next t →
    (wellFormed i = false → ∃ e, t.run = .faulted e) ∧
    (wellFormed i = true → i ≠ .div → i ≠ .mod → t.notFaulted ∨
      ((∃ ds sx rt base off, i = .ldr ds sx rt base off) ∨ (∃ ds rt base off, i = .str ds rt base off)) ∧
        ∃ addr n, t.run = .faulted (.memoryFault addr n))

/-- R26, R28: once the `run` transaction has a result, more steps change neither it nor the state. -/
def Obligations.TerminalStatesAreFinal : Prop :=
  ∀ (n m : Nat) (s : State) (r : RunResult), runResult n s = some r → n ≤ m →
    runResult m s = some r ∧ runFor m s = runFor n s

/-! ### Data memory and the stack controller -/

/-- R36, R37, R38: the sized access primitives. -/
def Obligations.SizedAccessesFollowTheirRules : Prop :=
  ∀ (s : State) (addr : Word) (n : Nat) (v : Word), n = 1 ∨ n = 2 ∨ n = 4 ∨ n = 8 →
    (8 * s.cap < addr.toNat + n →
      memRead addr n s = .error (.memoryFault addr n) ∧ memWrite addr n v s = .error (.memoryFault addr n)) ∧
    (addr.toNat + n ≤ 8 * s.cap →
      (∃ r, memRead addr n s = .ok r ∧ r.toNat = bytesValue s addr.toNat n) ∧
      ∃ t, memWrite addr n v s = .ok t ∧ t = { s with mem := t.mem } ∧
        (∀ k, k < n → t.byteAt (addr.toNat + k) = v.extractLsb' (8 * k) 8) ∧
        ∀ a, a < addr.toNat ∨ addr.toNat + n ≤ a → t.byteAt a = s.byteAt a)

/-- R34, R50: stack word `j` is the eight bytes `8j .. 8j+7` of the byte view, both ways. -/
def Obligations.StackWordsAndBytesAreOneArray : Prop :=
  ∀ (s : State) (j : Nat) (v : Word),
    (∀ k, k < 8 → s.byteAt (8 * j + k) = (s.stackWord j).extractLsb' (8 * k) 8) ∧
    (∀ k, k < 8 → (s.setStackWord j v).byteAt (8 * j + k) = v.extractLsb' (8 * k) 8) ∧
    (∀ i, i ≠ j → (s.setStackWord j v).stackWord i = s.stackWord i)

/-- R45: `push`. -/
def Obligations.PushFollowsItsRule : Prop :=
  ∀ (s : State) (v : Word),
    (s.sp < s.cap → ∃ t, push v s = (true, t) ∧ t = { s with mem := t.mem, sp := s.sp + 1 } ∧
      t.stackWord s.sp = v ∧ ∀ j, j ≠ s.sp → t.stackWord j = s.stackWord j) ∧
    (s.cap ≤ s.sp → push v s = (false, s))

/-- R46: `pop`, and the consequence the rule draws: pops give pushed values back in reverse order and `sp` returns to
its starting value. -/
def Obligations.PopFollowsItsRule : Prop :=
  (∀ s : State, (s.sp = 0 → pop s = .error .stackUnderflow) ∧
    (0 < s.sp → ∃ t, pop s = .ok (s.stackWord (s.sp - 1), t) ∧ t = { s with sp := s.sp - 1 })) ∧
  (∀ (vs : List Word) (s : State), s.sp + vs.length ≤ s.cap →
    ∃ t, popAll vs.length (pushAll vs s) = .ok (vs.reverse, t) ∧ t.sp = s.sp)

/-- R47: `set_n`. -/
def Obligations.SetNFollowsItsRule : Prop :=
  ∀ (s : State) (index : Nat) (v : Word),
    (index = 0 ∨ s.sp ≤ index → setN index v s = .error (.invalidIndex index)) ∧
    (1 ≤ index → index < s.sp → ∃ t, setN index v s = .ok t ∧ t = { s with mem := t.mem } ∧
      t.stackWord index = v ∧ ∀ j, j ≠ index → t.stackWord j = s.stackWord j)

/-- R48: `reserve`. -/
def Obligations.ReserveFollowsItsRule : Prop :=
  ∀ (s : State) (n : Nat),
    (s.sp + n ≤ s.cap → reserve n s = (true, { s with sp := s.sp + n })) ∧
    (s.cap < s.sp + n → reserve n s = (false, s)) ∧
    (s.sp ≤ s.cap → reserve 0 s = (true, s))

/-- R49: every operation of the stack controller keeps the invariant, `0 <= sp <= CAP` in it. -/
def Obligations.StackControllerKeepsInvariant : Prop :=
  ∀ (s : State), s.Inv →
    (∀ v, (push v s).2.Inv) ∧ (∀ v t, pop s = .ok (v, t) → t.Inv) ∧
    (∀ index v t, setN index v s = .ok t → t.Inv) ∧ (∀ n, (reserve n s).2.Inv)
end

