-- ==== Sys2Proof/Laws/Codec.lean ====
section
/-! SUPPORT. The laws of the codec (30_encoding.md R57, R58): the bits of an extended value, sign extension in
integer arithmetic, and bit by bit what a field is. -/

namespace Sys2Proof

@[simp] theorem getLsbD_field (w : InstrWord) (lo n i : Nat) :
    (field w lo n).getLsbD i = (decide (i < n) && w.getLsbD (lo + i)) := by
  simp [field, BitVec.getLsbD_extractLsb']

/-- The bits above `p`. -/
theorem getLsbD_high (p : Nat) {i : Nat} (hi : i < 64) :
    (BitVec.allOnes 64 <<< (p + 1)).getLsbD i = decide (p < i) := by
  rw [BitVec.getLsbD_shiftLeft, BitVec.getLsbD_allOnes]
  by_cases h : p < i
  · have h1 : ¬ i < p + 1 := by omega
    have h2 : i - (p + 1) < 64 := by omega
    simp [h, h1, h2, hi]
  · have h1 : i < p + 1 := by omega
    simp [h, h1]

/-- Bit `i` of an extended value: a bit of `v` up to the sign bit, copies of the sign bit or zeros above it. -/
theorem getLsbD_ext (v : Word) (p : Nat) (signed : Bool) {i : Nat} (hi : i < 64) :
    (ext v p signed).getLsbD i = if i ≤ p then v.getLsbD i else signed && v.getLsbD p := by
  unfold ext
  by_cases hs : (signed && v.getLsbD p) = true
  · rw [if_pos hs, BitVec.getLsbD_or, getLsbD_high p hi, hs]
    by_cases hp : i ≤ p
    · simp [hp, Nat.not_lt.mpr hp]
    · simp [hp, Nat.not_le.mp hp]
  · rw [if_neg hs, BitVec.getLsbD_and, BitVec.getLsbD_not, getLsbD_high p hi, Bool.eq_false_iff.mpr hs]
    by_cases hp : i ≤ p
    · simp only [hp, Nat.not_lt.mpr hp, hi, decide_true, decide_false, Bool.not_false, Bool.and_true, if_true]
    · simp only [hp, Nat.not_le.mp hp, decide_true, Bool.not_true, Bool.and_false, if_false]

/-- `sext_N` is two's-complement sign extension (R58). -/
theorem sext_eq_signExtend {n : Nat} (v : BitVec n) (h0 : 0 < n) (hn : n ≤ 64) : sext v = v.signExtend 64 := by
  refine BitVec.eq_of_getLsbD_eq fun i hi => ?_
  rw [sext, getLsbD_ext _ _ _ hi, BitVec.getLsbD_signExtend]
  have hp : n - 1 < 64 := by omega
  by_cases h : i ≤ n - 1
  · have h1 : i < n := by omega
    simp [h, h1, hi]
  · have h1 : ¬ i < n := by omega
    simp [h, h1, hi, hp, BitVec.msb_eq_getLsbD_last]

/-- `sext_N` in integer arithmetic: the signed reading, modulo 2^64 (00_scope.md R7). -/
theorem sext_eq_ofInt {n : Nat} (v : BitVec n) (h0 : 0 < n) (hn : n ≤ 64) :
    sext v = BitVec.ofInt 64 v.toInt := by
  rw [sext_eq_signExtend v h0 hn]
  rfl

/-- Adding a sign-extended field is adding its signed reading, modulo 2^64. -/
theorem add_sext {n : Nat} (a : Word) (v : BitVec n) (h0 : 0 < n) (hn : n ≤ 64) :
    a + sext v = BitVec.ofInt 64 ((a.toNat : Int) + v.toInt) := by
  rw [sext_eq_ofInt v h0 hn, BitVec.ofInt_add]
  congr 1
  simp

/-- Extending an `m`-bit value held in a word from bit `m - 1` (46_load_store.md R110). -/
theorem ext_ofNat {v m : Nat} (hv : v < 2 ^ m) (h0 : 0 < m) (hm : m ≤ 64) (signed : Bool) :
    ext (BitVec.ofNat 64 v) (m - 1) signed =
      if signed = true ∧ 2 ^ (m - 1) ≤ v then BitVec.ofInt 64 ((v : Int) - 2 ^ m) else BitVec.ofNat 64 v := by
  have hw : (BitVec.ofNat m v).setWidth 64 = BitVec.ofNat 64 v := by
    apply BitVec.eq_of_toNat_eq
    simp [Nat.mod_eq_of_lt hv]
  have hpow : 2 ^ m = 2 * 2 ^ (m - 1) := by
    obtain ⟨k, rfl⟩ : ∃ k, m = k + 1 := ⟨m - 1, by omega⟩
    rw [Nat.pow_succ, Nat.mul_comm]; rfl
  cases signed with
  | true =>
    have h := sext_eq_ofInt (BitVec.ofNat m v) h0 hm
    rw [sext, hw] at h
    rw [h, BitVec.toInt_eq_toNat_cond]
    simp only [BitVec.toNat_ofNat, Nat.mod_eq_of_lt hv, true_and]
    by_cases hc : 2 ^ (m - 1) ≤ v
    · rw [if_pos hc, if_neg (by omega)]
      push_cast
      rfl
    · rw [if_neg hc, if_pos (by omega)]
      simp
  | false =>
    simp only [Bool.false_eq_true, false_and, if_false]
    refine BitVec.eq_of_getLsbD_eq fun i hi => ?_
    rw [getLsbD_ext _ _ _ hi]
    by_cases h : i ≤ m - 1
    · simp [h]
    · have : v < 2 ^ i := lt_of_lt_of_le hv (Nat.pow_le_pow_right (by omega) (by omega))
      simp [h, BitVec.getLsbD_ofNat, Nat.testBit_lt_two_pow this]

end Sys2Proof
end

