-- ==== Sys2Proof/Laws/Encode.lean ====
section
/-! SUPPORT. The fields of the words the encoder makes, one lemma per format: each field of an encoded instruction
is the operand it encodes (30_encoding.md R61 to R68). -/

namespace Sys2Proof

/-- A field is what it is bit by bit. -/
theorem field_eq_of_bits {w : InstrWord} {lo n : Nat} {v : BitVec n}
    (h : ∀ k, k < n → w.getLsbD (lo + k) = v.getLsbD k) : field w lo n = v :=
  BitVec.eq_of_getLsbD_eq fun k hk => by rw [getLsbD_field]; simp [hk, h k hk]

theorem DataSize.ofField_toField (ds : DataSize) : DataSize.ofField ds.toField = ds := by cases ds <;> rfl

theorem DataSize.toField_ofField (f : BitVec 2) : (DataSize.ofField f).toField = f := by revert f; decide

theorem fields_encodeH (kind : BitVec 2) :
    opcode (encodeH kind) = 0#5 ∧
    field (encodeH kind) 25 2 = kind := by
  refine ⟨field_eq_of_bits fun k hk => ?_, field_eq_of_bits fun k hk => ?_⟩
  · simp only [encodeH, BitVec.getLsbD_append]; interval_cases k <;> simp
  · simp only [encodeH, BitVec.getLsbD_append]; interval_cases k <;> simp

theorem fields_encodeMImm (op : BitVec 5) (dst : Sel) (imm : BitVec 21) :
    opcode (encodeMImm op dst imm) = op ∧
    field (encodeMImm op dst imm) 22 5 = dst ∧
    flag (encodeMImm op dst imm) 21 = false ∧
    field (encodeMImm op dst imm) 0 21 = imm := by
  refine ⟨field_eq_of_bits fun k hk => ?_, field_eq_of_bits fun k hk => ?_, ?_, field_eq_of_bits fun k hk => ?_⟩
  · simp only [encodeMImm, BitVec.getLsbD_append]; interval_cases k <;> simp
  · simp only [encodeMImm, BitVec.getLsbD_append]; interval_cases k <;> simp
  · simp only [flag, encodeMImm, BitVec.getLsbD_append]; simp
  · simp only [encodeMImm, BitVec.getLsbD_append]; interval_cases k <;> simp

theorem fields_encodeMReg (op : BitVec 5) (dst src : Sel) :
    opcode (encodeMReg op dst src) = op ∧
    field (encodeMReg op dst src) 22 5 = dst ∧
    flag (encodeMReg op dst src) 21 = true ∧
    field (encodeMReg op dst src) 16 5 = src := by
  refine ⟨field_eq_of_bits fun k hk => ?_, field_eq_of_bits fun k hk => ?_, ?_, field_eq_of_bits fun k hk => ?_⟩
  · simp only [encodeMReg, BitVec.getLsbD_append]; interval_cases k <;> simp
  · simp only [encodeMReg, BitVec.getLsbD_append]; interval_cases k <;> simp
  · simp only [flag, encodeMReg, BitVec.getLsbD_append]; simp
  · simp only [encodeMReg, BitVec.getLsbD_append]; interval_cases k <;> simp

theorem fields_encodeAImm (dst : Sel) (quad : BitVec 2) (imm : BitVec 18) :
    opcode (encodeAImm dst quad imm) = 4#5 ∧
    field (encodeAImm dst quad imm) 22 5 = dst ∧
    field (encodeAImm dst quad imm) 20 2 = quad ∧
    flag (encodeAImm dst quad imm) 19 = false ∧
    field (encodeAImm dst quad imm) 0 18 = imm := by
  refine ⟨field_eq_of_bits fun k hk => ?_, field_eq_of_bits fun k hk => ?_, field_eq_of_bits fun k hk => ?_, ?_, field_eq_of_bits fun k hk => ?_⟩
  · simp only [encodeAImm, BitVec.getLsbD_append]; interval_cases k <;> simp
  · simp only [encodeAImm, BitVec.getLsbD_append]; interval_cases k <;> simp
  · simp only [encodeAImm, BitVec.getLsbD_append]; interval_cases k <;> simp
  · simp only [flag, encodeAImm, BitVec.getLsbD_append]; simp
  · simp only [encodeAImm, BitVec.getLsbD_append]; interval_cases k <;> simp

theorem fields_encodeAReg (dst : Sel) (quad : BitVec 2) (src : Sel) :
    opcode (encodeAReg dst quad src) = 4#5 ∧
    field (encodeAReg dst quad src) 22 5 = dst ∧
    field (encodeAReg dst quad src) 20 2 = quad ∧
    flag (encodeAReg dst quad src) 19 = true ∧
    field (encodeAReg dst quad src) 13 5 = src := by
  refine ⟨field_eq_of_bits fun k hk => ?_, field_eq_of_bits fun k hk => ?_, field_eq_of_bits fun k hk => ?_, ?_, field_eq_of_bits fun k hk => ?_⟩
  · simp only [encodeAReg, BitVec.getLsbD_append]; interval_cases k <;> simp
  · simp only [encodeAReg, BitVec.getLsbD_append]; interval_cases k <;> simp
  · simp only [encodeAReg, BitVec.getLsbD_append]; interval_cases k <;> simp
  · simp only [flag, encodeAReg, BitVec.getLsbD_append]; simp
  · simp only [encodeAReg, BitVec.getLsbD_append]; interval_cases k <;> simp

theorem fields_encodeBImm (link : Bool) (imm : BitVec 25) :
    opcode (encodeBImm link imm) = 5#5 ∧
    flag (encodeBImm link imm) 26 = link ∧
    flag (encodeBImm link imm) 25 = false ∧
    field (encodeBImm link imm) 0 25 = imm := by
  refine ⟨field_eq_of_bits fun k hk => ?_, ?_, ?_, field_eq_of_bits fun k hk => ?_⟩
  · simp only [encodeBImm, BitVec.getLsbD_append]; interval_cases k <;> simp
  · simp only [flag, encodeBImm, BitVec.getLsbD_append]; simp
  · simp only [flag, encodeBImm, BitVec.getLsbD_append]; simp
  · simp only [encodeBImm, BitVec.getLsbD_append]; interval_cases k <;> simp

theorem fields_encodeBReg (link : Bool) (reg : Sel) :
    opcode (encodeBReg link reg) = 5#5 ∧
    flag (encodeBReg link reg) 26 = link ∧
    flag (encodeBReg link reg) 25 = true ∧
    field (encodeBReg link reg) 20 5 = reg := by
  refine ⟨field_eq_of_bits fun k hk => ?_, ?_, ?_, field_eq_of_bits fun k hk => ?_⟩
  · simp only [encodeBReg, BitVec.getLsbD_append]; interval_cases k <;> simp
  · simp only [flag, encodeBReg, BitVec.getLsbD_append]; simp
  · simp only [flag, encodeBReg, BitVec.getLsbD_append]; simp
  · simp only [encodeBReg, BitVec.getLsbD_append]; interval_cases k <;> simp

theorem fields_encodeL (dst : Sel) (imm : BitVec 22) :
    opcode (encodeL dst imm) = 6#5 ∧
    field (encodeL dst imm) 22 5 = dst ∧
    field (encodeL dst imm) 0 22 = imm := by
  refine ⟨field_eq_of_bits fun k hk => ?_, field_eq_of_bits fun k hk => ?_, field_eq_of_bits fun k hk => ?_⟩
  · simp only [encodeL, BitVec.getLsbD_append]; interval_cases k <;> simp
  · simp only [encodeL, BitVec.getLsbD_append]; interval_cases k <;> simp
  · simp only [encodeL, BitVec.getLsbD_append]; interval_cases k <;> simp

theorem fields_encodeRImm (op : BitVec 5) (dst src : Sel) (imm : BitVec 16) :
    opcode (encodeRImm op dst src imm) = op ∧
    field (encodeRImm op dst src imm) 22 5 = dst ∧
    field (encodeRImm op dst src imm) 17 5 = src ∧
    flag (encodeRImm op dst src imm) 16 = false ∧
    field (encodeRImm op dst src imm) 0 16 = imm := by
  refine ⟨field_eq_of_bits fun k hk => ?_, field_eq_of_bits fun k hk => ?_, field_eq_of_bits fun k hk => ?_, ?_, field_eq_of_bits fun k hk => ?_⟩
  · simp only [encodeRImm, BitVec.getLsbD_append]; interval_cases k <;> simp
  · simp only [encodeRImm, BitVec.getLsbD_append]; interval_cases k <;> simp
  · simp only [encodeRImm, BitVec.getLsbD_append]; interval_cases k <;> simp
  · simp only [flag, encodeRImm, BitVec.getLsbD_append]; simp
  · simp only [encodeRImm, BitVec.getLsbD_append]; interval_cases k <;> simp

theorem fields_encodeRReg (op : BitVec 5) (dst src src2 : Sel) :
    opcode (encodeRReg op dst src src2) = op ∧
    field (encodeRReg op dst src src2) 22 5 = dst ∧
    field (encodeRReg op dst src src2) 17 5 = src ∧
    flag (encodeRReg op dst src src2) 16 = true ∧
    field (encodeRReg op dst src src2) 11 5 = src2 := by
  refine ⟨field_eq_of_bits fun k hk => ?_, field_eq_of_bits fun k hk => ?_, field_eq_of_bits fun k hk => ?_, ?_, field_eq_of_bits fun k hk => ?_⟩
  · simp only [encodeRReg, BitVec.getLsbD_append]; interval_cases k <;> simp
  · simp only [encodeRReg, BitVec.getLsbD_append]; interval_cases k <;> simp
  · simp only [encodeRReg, BitVec.getLsbD_append]; interval_cases k <;> simp
  · simp only [flag, encodeRReg, BitVec.getLsbD_append]; simp
  · simp only [encodeRReg, BitVec.getLsbD_append]; interval_cases k <;> simp

theorem fields_encodeCmp (cc : BitVec 4) (lhs rhs : Sel) :
    opcode (encodeCmp cc lhs rhs) = 18#5 ∧
    field (encodeCmp cc lhs rhs) 23 4 = cc ∧
    flag (encodeCmp cc lhs rhs) 22 = false ∧
    field (encodeCmp cc lhs rhs) 17 5 = lhs ∧
    field (encodeCmp cc lhs rhs) 12 5 = rhs := by
  refine ⟨field_eq_of_bits fun k hk => ?_, field_eq_of_bits fun k hk => ?_, ?_, field_eq_of_bits fun k hk => ?_, field_eq_of_bits fun k hk => ?_⟩
  · simp only [encodeCmp, BitVec.getLsbD_append]; interval_cases k <;> simp
  · simp only [encodeCmp, BitVec.getLsbD_append]; interval_cases k <;> simp
  · simp only [flag, encodeCmp, BitVec.getLsbD_append]; simp
  · simp only [encodeCmp, BitVec.getLsbD_append]; interval_cases k <;> simp
  · simp only [encodeCmp, BitVec.getLsbD_append]; interval_cases k <;> simp

theorem fields_encodeCset (cc : BitVec 4) (lhs rhs dst : Sel) :
    opcode (encodeCset cc lhs rhs dst) = 18#5 ∧
    field (encodeCset cc lhs rhs dst) 23 4 = cc ∧
    flag (encodeCset cc lhs rhs dst) 22 = true ∧
    field (encodeCset cc lhs rhs dst) 17 5 = lhs ∧
    field (encodeCset cc lhs rhs dst) 12 5 = rhs ∧
    field (encodeCset cc lhs rhs dst) 7 5 = dst := by
  refine ⟨field_eq_of_bits fun k hk => ?_, field_eq_of_bits fun k hk => ?_, ?_, field_eq_of_bits fun k hk => ?_, field_eq_of_bits fun k hk => ?_, field_eq_of_bits fun k hk => ?_⟩
  · simp only [encodeCset, BitVec.getLsbD_append]; interval_cases k <;> simp
  · simp only [encodeCset, BitVec.getLsbD_append]; interval_cases k <;> simp
  · simp only [flag, encodeCset, BitVec.getLsbD_append]; simp
  · simp only [encodeCset, BitVec.getLsbD_append]; interval_cases k <;> simp
  · simp only [encodeCset, BitVec.getLsbD_append]; interval_cases k <;> simp
  · simp only [encodeCset, BitVec.getLsbD_append]; interval_cases k <;> simp

theorem fields_encodeS (op : BitVec 5) (ds : DataSize) (sx : Bool) (rt base : Sel) (off : BitVec 14) :
    opcode (encodeS op ds sx rt base off) = op ∧
    field (encodeS op ds sx rt base off) 25 2 = ds.toField ∧
    flag (encodeS op ds sx rt base off) 24 = sx ∧
    field (encodeS op ds sx rt base off) 19 5 = rt ∧
    field (encodeS op ds sx rt base off) 14 5 = base ∧
    field (encodeS op ds sx rt base off) 0 14 = off := by
  refine ⟨field_eq_of_bits fun k hk => ?_, field_eq_of_bits fun k hk => ?_, ?_, field_eq_of_bits fun k hk => ?_, field_eq_of_bits fun k hk => ?_, field_eq_of_bits fun k hk => ?_⟩
  · simp only [encodeS, BitVec.getLsbD_append]; interval_cases k <;> simp
  · simp only [encodeS, BitVec.getLsbD_append]; interval_cases k <;> simp
  · simp only [flag, encodeS, BitVec.getLsbD_append]; simp
  · simp only [encodeS, BitVec.getLsbD_append]; interval_cases k <;> simp
  · simp only [encodeS, BitVec.getLsbD_append]; interval_cases k <;> simp
  · simp only [encodeS, BitVec.getLsbD_append]; interval_cases k <;> simp

end Sys2Proof
end

