-- ==== Sys2Proof/Laws/State.lean ====
section
/-! SUPPORT. One lemma per field per update of State, so that no proof unfolds a record update; the same for reading a
register slot or a byte of memory after an update. -/

namespace Sys2Proof.Machine

@[simp] theorem State.setReg_x (s : State) (d : Fin 16) (v : Word) : (s.setReg d v).x = s.x.set d v := rfl
@[simp] theorem State.setReg_xr (s : State) (d : Fin 16) (v : Word) : (s.setReg d v).xr = s.xr := rfl
@[simp] theorem State.setReg_iret (s : State) (d : Fin 16) (v : Word) : (s.setReg d v).iret = s.iret := rfl
@[simp] theorem State.setReg_sysc (s : State) (d : Fin 16) (v : Word) : (s.setReg d v).sysc = s.sysc := rfl
@[simp] theorem State.setReg_ip (s : State) (d : Fin 16) (v : Word) : (s.setReg d v).ip = s.ip := rfl
@[simp] theorem State.setReg_fp (s : State) (d : Fin 16) (v : Word) : (s.setReg d v).fp = s.fp := rfl
@[simp] theorem State.setReg_sp (s : State) (d : Fin 16) (v : Word) : (s.setReg d v).sp = s.sp := rfl
@[simp] theorem State.setReg_lastCmp (s : State) (d : Fin 16) (v : Word) : (s.setReg d v).lastCmp = s.lastCmp := rfl
@[simp] theorem State.setReg_mem (s : State) (d : Fin 16) (v : Word) : (s.setReg d v).mem = s.mem := rfl
@[simp] theorem State.setReg_run (s : State) (d : Fin 16) (v : Word) : (s.setReg d v).run = s.run := rfl
@[simp] theorem State.setReg_code (s : State) (d : Fin 16) (v : Word) : (s.setReg d v).code = s.code := rfl
@[simp] theorem State.setReg_cap (s : State) (d : Fin 16) (v : Word) : (s.setReg d v).cap = s.cap := rfl

@[simp] theorem State.setIp_x (s : State) (v : Word) : (s.setIp v).x = s.x := rfl
@[simp] theorem State.setIp_xr (s : State) (v : Word) : (s.setIp v).xr = s.xr := rfl
@[simp] theorem State.setIp_iret (s : State) (v : Word) : (s.setIp v).iret = s.iret := rfl
@[simp] theorem State.setIp_sysc (s : State) (v : Word) : (s.setIp v).sysc = s.sysc := rfl
@[simp] theorem State.setIp_ip (s : State) (v : Word) : (s.setIp v).ip = v := rfl
@[simp] theorem State.setIp_fp (s : State) (v : Word) : (s.setIp v).fp = s.fp := rfl
@[simp] theorem State.setIp_sp (s : State) (v : Word) : (s.setIp v).sp = s.sp := rfl
@[simp] theorem State.setIp_lastCmp (s : State) (v : Word) : (s.setIp v).lastCmp = s.lastCmp := rfl
@[simp] theorem State.setIp_mem (s : State) (v : Word) : (s.setIp v).mem = s.mem := rfl
@[simp] theorem State.setIp_run (s : State) (v : Word) : (s.setIp v).run = s.run := rfl
@[simp] theorem State.setIp_code (s : State) (v : Word) : (s.setIp v).code = s.code := rfl
@[simp] theorem State.setIp_cap (s : State) (v : Word) : (s.setIp v).cap = s.cap := rfl

@[simp] theorem State.setFp_x (s : State) (v : Word) : (s.setFp v).x = s.x := rfl
@[simp] theorem State.setFp_xr (s : State) (v : Word) : (s.setFp v).xr = s.xr := rfl
@[simp] theorem State.setFp_iret (s : State) (v : Word) : (s.setFp v).iret = s.iret := rfl
@[simp] theorem State.setFp_sysc (s : State) (v : Word) : (s.setFp v).sysc = s.sysc := rfl
@[simp] theorem State.setFp_ip (s : State) (v : Word) : (s.setFp v).ip = s.ip := rfl
@[simp] theorem State.setFp_fp (s : State) (v : Word) : (s.setFp v).fp = v := rfl
@[simp] theorem State.setFp_sp (s : State) (v : Word) : (s.setFp v).sp = s.sp := rfl
@[simp] theorem State.setFp_lastCmp (s : State) (v : Word) : (s.setFp v).lastCmp = s.lastCmp := rfl
@[simp] theorem State.setFp_mem (s : State) (v : Word) : (s.setFp v).mem = s.mem := rfl
@[simp] theorem State.setFp_run (s : State) (v : Word) : (s.setFp v).run = s.run := rfl
@[simp] theorem State.setFp_code (s : State) (v : Word) : (s.setFp v).code = s.code := rfl
@[simp] theorem State.setFp_cap (s : State) (v : Word) : (s.setFp v).cap = s.cap := rfl

@[simp] theorem State.setSp_x (s : State) (n : Nat) : (s.setSp n).x = s.x := rfl
@[simp] theorem State.setSp_xr (s : State) (n : Nat) : (s.setSp n).xr = s.xr := rfl
@[simp] theorem State.setSp_iret (s : State) (n : Nat) : (s.setSp n).iret = s.iret := rfl
@[simp] theorem State.setSp_sysc (s : State) (n : Nat) : (s.setSp n).sysc = s.sysc := rfl
@[simp] theorem State.setSp_ip (s : State) (n : Nat) : (s.setSp n).ip = s.ip := rfl
@[simp] theorem State.setSp_fp (s : State) (n : Nat) : (s.setSp n).fp = s.fp := rfl
@[simp] theorem State.setSp_sp (s : State) (n : Nat) : (s.setSp n).sp = n := rfl
@[simp] theorem State.setSp_lastCmp (s : State) (n : Nat) : (s.setSp n).lastCmp = s.lastCmp := rfl
@[simp] theorem State.setSp_mem (s : State) (n : Nat) : (s.setSp n).mem = s.mem := rfl
@[simp] theorem State.setSp_run (s : State) (n : Nat) : (s.setSp n).run = s.run := rfl
@[simp] theorem State.setSp_code (s : State) (n : Nat) : (s.setSp n).code = s.code := rfl
@[simp] theorem State.setSp_cap (s : State) (n : Nat) : (s.setSp n).cap = s.cap := rfl

@[simp] theorem State.setLatch_x (s : State) (b : Bool) : (s.setLatch b).x = s.x := rfl
@[simp] theorem State.setLatch_xr (s : State) (b : Bool) : (s.setLatch b).xr = s.xr := rfl
@[simp] theorem State.setLatch_iret (s : State) (b : Bool) : (s.setLatch b).iret = s.iret := rfl
@[simp] theorem State.setLatch_sysc (s : State) (b : Bool) : (s.setLatch b).sysc = s.sysc := rfl
@[simp] theorem State.setLatch_ip (s : State) (b : Bool) : (s.setLatch b).ip = s.ip := rfl
@[simp] theorem State.setLatch_fp (s : State) (b : Bool) : (s.setLatch b).fp = s.fp := rfl
@[simp] theorem State.setLatch_sp (s : State) (b : Bool) : (s.setLatch b).sp = s.sp := rfl
@[simp] theorem State.setLatch_lastCmp (s : State) (b : Bool) : (s.setLatch b).lastCmp = b := rfl
@[simp] theorem State.setLatch_mem (s : State) (b : Bool) : (s.setLatch b).mem = s.mem := rfl
@[simp] theorem State.setLatch_run (s : State) (b : Bool) : (s.setLatch b).run = s.run := rfl
@[simp] theorem State.setLatch_code (s : State) (b : Bool) : (s.setLatch b).code = s.code := rfl
@[simp] theorem State.setLatch_cap (s : State) (b : Bool) : (s.setLatch b).cap = s.cap := rfl

@[simp] theorem State.setMem_x (s : State) (m : Memory) : (s.setMem m).x = s.x := rfl
@[simp] theorem State.setMem_xr (s : State) (m : Memory) : (s.setMem m).xr = s.xr := rfl
@[simp] theorem State.setMem_iret (s : State) (m : Memory) : (s.setMem m).iret = s.iret := rfl
@[simp] theorem State.setMem_sysc (s : State) (m : Memory) : (s.setMem m).sysc = s.sysc := rfl
@[simp] theorem State.setMem_ip (s : State) (m : Memory) : (s.setMem m).ip = s.ip := rfl
@[simp] theorem State.setMem_fp (s : State) (m : Memory) : (s.setMem m).fp = s.fp := rfl
@[simp] theorem State.setMem_sp (s : State) (m : Memory) : (s.setMem m).sp = s.sp := rfl
@[simp] theorem State.setMem_lastCmp (s : State) (m : Memory) : (s.setMem m).lastCmp = s.lastCmp := rfl
@[simp] theorem State.setMem_mem (s : State) (m : Memory) : (s.setMem m).mem = m := rfl
@[simp] theorem State.setMem_run (s : State) (m : Memory) : (s.setMem m).run = s.run := rfl
@[simp] theorem State.setMem_code (s : State) (m : Memory) : (s.setMem m).code = s.code := rfl
@[simp] theorem State.setMem_cap (s : State) (m : Memory) : (s.setMem m).cap = s.cap := rfl

@[simp] theorem State.setRun_x (s : State) (r : RunState) : (s.setRun r).x = s.x := rfl
@[simp] theorem State.setRun_xr (s : State) (r : RunState) : (s.setRun r).xr = s.xr := rfl
@[simp] theorem State.setRun_iret (s : State) (r : RunState) : (s.setRun r).iret = s.iret := rfl
@[simp] theorem State.setRun_sysc (s : State) (r : RunState) : (s.setRun r).sysc = s.sysc := rfl
@[simp] theorem State.setRun_ip (s : State) (r : RunState) : (s.setRun r).ip = s.ip := rfl
@[simp] theorem State.setRun_fp (s : State) (r : RunState) : (s.setRun r).fp = s.fp := rfl
@[simp] theorem State.setRun_sp (s : State) (r : RunState) : (s.setRun r).sp = s.sp := rfl
@[simp] theorem State.setRun_lastCmp (s : State) (r : RunState) : (s.setRun r).lastCmp = s.lastCmp := rfl
@[simp] theorem State.setRun_mem (s : State) (r : RunState) : (s.setRun r).mem = s.mem := rfl
@[simp] theorem State.setRun_run (s : State) (r : RunState) : (s.setRun r).run = r := rfl
@[simp] theorem State.setRun_code (s : State) (r : RunState) : (s.setRun r).code = s.code := rfl
@[simp] theorem State.setRun_cap (s : State) (r : RunState) : (s.setRun r).cap = s.cap := rfl

@[simp] theorem State.byteAt_setReg (s : State) (d : Fin 16) (v : Word) (a : Nat) : (s.setReg d v).byteAt a = s.byteAt a := rfl
@[simp] theorem State.reg_setIp (s : State) (v : Word) (r : Fin 16) : (s.setIp v).reg r = s.reg r := rfl
@[simp] theorem State.byteAt_setIp (s : State) (v : Word) (a : Nat) : (s.setIp v).byteAt a = s.byteAt a := rfl
@[simp] theorem State.reg_setFp (s : State) (v : Word) (r : Fin 16) : (s.setFp v).reg r = s.reg r := rfl
@[simp] theorem State.byteAt_setFp (s : State) (v : Word) (a : Nat) : (s.setFp v).byteAt a = s.byteAt a := rfl
@[simp] theorem State.reg_setSp (s : State) (n : Nat) (r : Fin 16) : (s.setSp n).reg r = s.reg r := rfl
@[simp] theorem State.byteAt_setSp (s : State) (n : Nat) (a : Nat) : (s.setSp n).byteAt a = s.byteAt a := rfl
@[simp] theorem State.reg_setLatch (s : State) (b : Bool) (r : Fin 16) : (s.setLatch b).reg r = s.reg r := rfl
@[simp] theorem State.byteAt_setLatch (s : State) (b : Bool) (a : Nat) : (s.setLatch b).byteAt a = s.byteAt a := rfl
@[simp] theorem State.reg_setMem (s : State) (m : Memory) (r : Fin 16) : (s.setMem m).reg r = s.reg r := rfl
@[simp] theorem State.reg_setRun (s : State) (q : RunState) (r : Fin 16) : (s.setRun q).reg r = s.reg r := rfl
@[simp] theorem State.byteAt_setRun (s : State) (r : RunState) (a : Nat) : (s.setRun r).byteAt a = s.byteAt a := rfl

@[simp] theorem State.reg_setReg_self (s : State) (d : Fin 16) (v : Word) : (s.setReg d v).reg d = v := by
  simp [State.setReg, State.reg]

theorem State.reg_setReg_of_ne (s : State) {d r : Fin 16} (v : Word) (h : r ≠ d) :
    (s.setReg d v).reg r = s.reg r := by
  have hv : d.val ≠ r.val := fun e => h (Fin.ext e.symm)
  simp [State.setReg, State.reg, hv]

@[simp] theorem State.byteAt_setMem (s : State) (m : Memory) (a : Nat) :
    (s.setMem m).byteAt a = Memory.readByte m a := rfl

@[simp] theorem advanceIp_eq (s : State) : advanceIp s = s.setIp (s.ip + 1) := rfl

end Sys2Proof.Machine
end

