-- ==== Sys2Proof/Laws/Memory.lean ====
section
/-! SUPPORT. The laws of data memory: read after write, what a sized access reads and writes, and that every memory
operation keeps the canonical form (20_memory.md R34 to R37). -/

namespace Sys2Proof.Machine

theorem Memory.readByte_removeByte (m : Memory) (a c : Nat) :
    Memory.readByte (Memory.removeByte m a) c = if c = a then Config.unlistedByte else Memory.readByte m c := by
  induction m with
  | nil => simp [Memory.removeByte, Memory.readByte]
  | cons p m ih =>
    obtain ⟨a', b'⟩ := p
    by_cases h : a' = a <;> by_cases hc : c = a' <;> simp_all [Memory.removeByte, Memory.readByte]

theorem Memory.readByte_insertByte {m : Memory} {a : Nat} {b : Byte} (c : Nat) (h : ∀ p ∈ m, p.1 ≠ a) :
    Memory.readByte (Memory.insertByte m a b) c = if c = a then b else Memory.readByte m c := by
  induction m with
  | nil => simp [Memory.insertByte, Memory.readByte]
  | cons p m ih =>
    obtain ⟨a', b'⟩ := p
    have ha : a' ≠ a := h (a', b') (by simp)
    have ih := ih fun q hq => h q (by simp [hq])
    unfold Memory.insertByte
    split
    · rfl
    · simp only [Memory.readByte, ih]
      by_cases hc : c = a'
      · subst hc
        simp [ha]
      · simp [hc]

theorem Memory.mem_removeByte {m : Memory} {a : Nat} {p : Host.Cell} :
    p ∈ Memory.removeByte m a ↔ p ∈ m ∧ p.1 ≠ a := by
  induction m with
  | nil => simp [Memory.removeByte]
  | cons q m ih =>
    obtain ⟨a', b'⟩ := q
    by_cases h : a' = a
    · simp only [Memory.removeByte, h, if_true, ih, List.mem_cons]
      constructor
      · rintro ⟨hm, hp⟩
        exact ⟨.inr hm, hp⟩
      · rintro ⟨hm | hm, hp⟩
        · exact absurd (by rw [hm]) hp
        · exact ⟨hm, hp⟩
    · simp only [Memory.removeByte, h, if_false, ih, List.mem_cons]
      constructor
      · rintro (hm | ⟨hm, hp⟩)
        · exact ⟨.inl hm, by rw [hm]; exact h⟩
        · exact ⟨.inr hm, hp⟩
      · rintro ⟨hm | hm, hp⟩
        · exact .inl hm
        · exact .inr ⟨hm, hp⟩

theorem Memory.mem_insertByte {m : Memory} {a : Nat} {b : Byte} {p : Host.Cell} :
    p ∈ Memory.insertByte m a b ↔ p = (a, b) ∨ p ∈ m := by
  induction m with
  | nil => simp [Memory.insertByte]
  | cons q m ih =>
    obtain ⟨a', b'⟩ := q
    by_cases h : a < a' <;> simp [Memory.insertByte, h, ih]
    tauto

/-- A byte written is the byte read back, and every other byte is as before, whatever the list. -/
@[simp] theorem Memory.readByte_writeByte (m : Memory) (a c : Nat) (b : Byte) :
    Memory.readByte (Memory.writeByte m a b) c = if c = a then b else Memory.readByte m c := by
  unfold Memory.writeByte
  by_cases h : b = Config.unlistedByte
  · by_cases hc : c = a <;> simp [h, Memory.readByte_removeByte, hc]
  · rw [if_neg h, Memory.readByte_insertByte c fun p hp => (Memory.mem_removeByte.mp hp).2]
    by_cases hc : c = a <;> simp [Memory.readByte_removeByte, hc]

/-- Writing a byte adds at most an entry at its own address. -/
theorem Memory.mem_writeByte {m : Memory} {a : Nat} {b : Byte} {p : Host.Cell}
    (h : p ∈ Memory.writeByte m a b) : p.1 = a ∨ p ∈ m := by
  unfold Memory.writeByte at h
  split at h
  · exact .inr (Memory.mem_removeByte.mp h).1
  · rcases Memory.mem_insertByte.mp h with rfl | h
    · exact .inl rfl
    · exact .inr (Memory.mem_removeByte.mp h).1

/-! ### The canonical form -/

theorem Memory.wfFrom_mono {lo lo' : Nat} {m : Memory} (h : lo' ≤ lo) (hm : Memory.wfFrom lo m = true) :
    Memory.wfFrom lo' m = true := by
  cases m with
  | nil => rfl
  | cons p m =>
    obtain ⟨a, b⟩ := p
    simp only [Memory.wfFrom, Bool.and_eq_true, decide_eq_true_eq] at hm ⊢
    exact ⟨⟨by omega, hm.1.2⟩, hm.2⟩

theorem Memory.wfFrom_removeByte {lo : Nat} {m : Memory} (a : Nat) (hm : Memory.wfFrom lo m = true) :
    Memory.wfFrom lo (Memory.removeByte m a) = true := by
  induction m generalizing lo with
  | nil => rfl
  | cons p m ih =>
    obtain ⟨a', b'⟩ := p
    simp only [Memory.wfFrom, Bool.and_eq_true, decide_eq_true_eq] at hm
    unfold Memory.removeByte
    split
    · exact Memory.wfFrom_mono (by omega) (ih hm.2)
    · simp only [Memory.wfFrom, Bool.and_eq_true, decide_eq_true_eq]
      exact ⟨hm.1, ih hm.2⟩

theorem Memory.wfFrom_insertByte {lo a : Nat} {m : Memory} {b : Byte} (hb : b ≠ Config.unlistedByte)
    (hlo : lo ≤ a) (ha : ∀ p ∈ m, p.1 ≠ a) (hm : Memory.wfFrom lo m = true) :
    Memory.wfFrom lo (Memory.insertByte m a b) = true := by
  induction m generalizing lo with
  | nil => simp [Memory.insertByte, Memory.wfFrom, hb, hlo]
  | cons p m ih =>
    obtain ⟨a', b'⟩ := p
    have hne : a' ≠ a := ha (a', b') (by simp)
    simp only [Memory.wfFrom, Bool.and_eq_true, decide_eq_true_eq] at hm
    unfold Memory.insertByte
    split
    · simp only [Memory.wfFrom, Bool.and_eq_true, decide_eq_true_eq]
      exact ⟨⟨hlo, hb⟩, ⟨by omega, hm.1.2⟩, hm.2⟩
    · simp only [Memory.wfFrom, Bool.and_eq_true, decide_eq_true_eq]
      exact ⟨hm.1, ih (by omega) (fun q hq => ha q (by simp [hq])) hm.2⟩

theorem Memory.wf_nil : Memory.wf [] = true := rfl

/-- Writing a byte keeps the canonical form. -/
theorem Memory.wf_writeByte {m : Memory} (a : Nat) (b : Byte) (hm : Memory.wf m = true) :
    Memory.wf (Memory.writeByte m a b) = true := by
  unfold Memory.writeByte Memory.wf
  split
  · exact Memory.wfFrom_removeByte a hm
  · next hb =>
    exact Memory.wfFrom_insertByte hb (Nat.zero_le a) (fun p hp => (Memory.mem_removeByte.mp hp).2)
      (Memory.wfFrom_removeByte a hm)

/-- A sized store keeps the canonical form. -/
theorem Memory.wf_storeLE {m : Memory} (a : Nat) (v : Word) (n : Nat) (hm : Memory.wf m = true) :
    Memory.wf (Memory.storeLE m a v n) = true := by
  induction n generalizing m a v with
  | zero => exact hm
  | succ n ih => exact ih (a + 1) (v >>> 8) (Memory.wf_writeByte a _ hm)

/-- The first entry of a canonical memory that holds something above it is not at an address the rest lists. -/
theorem Memory.wfFrom_lt {lo : Nat} {m : Memory} (hm : Memory.wfFrom lo m = true) :
    ∀ p ∈ m, lo ≤ p.1 ∧ p.2 ≠ Config.unlistedByte := by
  induction m generalizing lo with
  | nil => simp
  | cons q m ih =>
    obtain ⟨a', b'⟩ := q
    simp only [Memory.wfFrom, Bool.and_eq_true, decide_eq_true_eq] at hm
    intro p hp
    rcases List.mem_cons.mp hp with rfl | hp
    · exact hm.1
    · exact ⟨le_trans (by omega) (ih hm.2 p hp).1, (ih hm.2 p hp).2⟩

theorem Memory.readByte_of_lt {lo c : Nat} {m : Memory} (hm : Memory.wfFrom lo m = true) (hc : c < lo) :
    Memory.readByte m c = Config.unlistedByte := by
  induction m generalizing lo with
  | nil => rfl
  | cons q m ih =>
    obtain ⟨a', b'⟩ := q
    simp only [Memory.wfFrom, Bool.and_eq_true, decide_eq_true_eq] at hm
    have : c ≠ a' := by omega
    simp only [Memory.readByte, this, if_false]
    exact ih hm.2 (by omega)

/-- Two canonical memories with the same bytes are the same list. -/
theorem Memory.wfFrom_ext {lo : Nat} {m m' : Memory} (hm : Memory.wfFrom lo m = true)
    (hm' : Memory.wfFrom lo m' = true) (h : ∀ c, Memory.readByte m c = Memory.readByte m' c) : m = m' := by
  induction m generalizing lo m' with
  | nil =>
    cases m' with
    | nil => rfl
    | cons q m' =>
      have := (Memory.wfFrom_lt hm' q (by simp)).2
      have h' := h q.1
      simp [Memory.readByte] at h'
      exact absurd h'.symm this
  | cons p m ih =>
    obtain ⟨a, b⟩ := p
    simp only [Memory.wfFrom, Bool.and_eq_true, decide_eq_true_eq] at hm
    cases m' with
    | nil =>
      have h' := h a
      simp [Memory.readByte] at h'
      exact absurd h' hm.1.2
    | cons q m' =>
      obtain ⟨a', b'⟩ := q
      simp only [Memory.wfFrom, Bool.and_eq_true, decide_eq_true_eq] at hm'
      have haa : a = a' := by
        rcases Nat.lt_trichotomy a a' with hl | he | hl
        · have h' := h a
          have hz := Memory.readByte_of_lt hm'.2 (c := a) (by omega)
          have hne : a ≠ a' := by omega
          simp [Memory.readByte, hne, hz] at h'
          exact absurd h' hm.1.2
        · exact he
        · have h' := h a'
          have hz := Memory.readByte_of_lt hm.2 (c := a') (by omega)
          have hne : a' ≠ a := by omega
          simp [Memory.readByte, hne, hz] at h'
          exact absurd h'.symm hm'.1.2
      subst haa
      have hbb : b = b' := by simpa [Memory.readByte] using h a
      subst hbb
      congr 1
      refine ih hm.2 hm'.2 fun c => ?_
      by_cases hc : c = a
      · subst hc
        rw [Memory.readByte_of_lt hm.2 (by omega), Memory.readByte_of_lt hm'.2 (by omega)]
      · simpa [Memory.readByte, hc] using h c

/-- Equal contents, equal data: what the canonical form is for. -/
theorem Memory.wf_ext {m m' : Memory} (hm : Memory.wf m = true) (hm' : Memory.wf m' = true)
    (h : ∀ c, Memory.readByte m c = Memory.readByte m' c) : m = m' := Memory.wfFrom_ext hm hm' h

/-! ### Sized accesses -/

/-- Every address a sized store can list is one it stores to or one listed before. -/
theorem Memory.mem_storeLE {m : Memory} {a n : Nat} {v : Word} {p : Host.Cell}
    (h : p ∈ Memory.storeLE m a v n) : (a ≤ p.1 ∧ p.1 < a + n) ∨ p ∈ m := by
  induction n generalizing m a v with
  | zero => exact .inr h
  | succ n ih =>
    rcases ih h with h | h
    · exact .inl ⟨by omega, by omega⟩
    · rcases Memory.mem_writeByte h with h | h
      · exact .inl ⟨by omega, by omega⟩
      · exact .inr h

/-- A sized store leaves every byte outside it alone. -/
theorem Memory.readByte_storeLE_outside {m : Memory} {a n c : Nat} {v : Word} (h : c < a ∨ a + n ≤ c) :
    Memory.readByte (Memory.storeLE m a v n) c = Memory.readByte m c := by
  induction n generalizing m a v with
  | zero => rfl
  | succ n ih =>
    have hc : c ≠ a := by omega
    rw [Memory.storeLE, ih (by omega), Memory.readByte_writeByte, if_neg hc]

/-- Byte `k` of a sized store is byte `k` of the value (20_memory.md R37). -/
theorem Memory.readByte_storeLE {m : Memory} {a n k : Nat} {v : Word} (h : k < n) :
    Memory.readByte (Memory.storeLE m a v n) (a + k) = v.extractLsb' (8 * k) 8 := by
  induction n generalizing m a v k with
  | zero => omega
  | succ n ih =>
    rw [Memory.storeLE]
    cases k with
    | zero =>
      rw [Memory.readByte_storeLE_outside (by omega)]
      simp only [Nat.add_zero, Memory.readByte_writeByte, if_true]
      ext i hi
      simp
    | succ k =>
      have := ih (m := Memory.writeByte m a (v.setWidth 8)) (a := a + 1) (v := v >>> 8) (k := k) (by omega)
      rw [show a + (k + 1) = a + 1 + k by omega, this]
      ext i hi
      simp only [BitVec.getElem_extractLsb', BitVec.getLsbD_ushiftRight]
      congr 1
      omega

/-- The unsigned value of a sized load is below `2^(8n)` (20_memory.md R36). -/
theorem Memory.loadLE_lt (m : Memory) (a n : Nat) : Memory.loadLE m a n < 2 ^ (8 * n) := by
  induction n generalizing a with
  | zero => simp [Memory.loadLE]
  | succ n ih =>
    have h1 := ih (a + 1)
    have h2 := (Memory.readByte m a).isLt
    have h3 : 2 ^ (8 * (n + 1)) = 256 * 2 ^ (8 * n) := by rw [Nat.mul_add, Nat.pow_add, Nat.mul_comm]
    simp only [Memory.loadLE, h3]
    omega

/-- A sized load as the sum of R36. -/
theorem Memory.loadLE_eq_sum (m : Memory) (a n : Nat) :
    Memory.loadLE m a n = (Finset.range n).sum fun k => (Memory.readByte m (a + k)).toNat * 2 ^ (8 * k) := by
  induction n generalizing a with
  | zero => rfl
  | succ n ih =>
    rw [Memory.loadLE, ih, Finset.sum_range_succ', Finset.mul_sum, Nat.add_comm]
    congr 1
    · refine Finset.sum_congr rfl fun k _ => ?_
      rw [show a + 1 + k = a + (k + 1) by omega, show 8 * (k + 1) = 8 * k + 8 by omega, Nat.pow_add]
      ring
    · simp

/-- A sized load depends on its own bytes only. -/
theorem Memory.loadLE_congr {m m' : Memory} {a n : Nat}
    (h : ∀ k, k < n → Memory.readByte m (a + k) = Memory.readByte m' (a + k)) :
    Memory.loadLE m a n = Memory.loadLE m' a n := by
  rw [Memory.loadLE_eq_sum, Memory.loadLE_eq_sum]
  refine Finset.sum_congr rfl fun k hk => ?_
  rw [h k (Finset.mem_range.mp hk)]

/-- A load of the bytes a store of the same width just wrote gives the low bytes of the value. -/
theorem Memory.loadLE_storeLE (m : Memory) (a n : Nat) (v : Word) (hn : n ≤ 8) :
    Memory.loadLE (Memory.storeLE m a v n) a n = v.toNat % 2 ^ (8 * n) := by
  induction n generalizing m a v with
  | zero => simp [Memory.loadLE, Nat.mod_one]
  | succ n ih =>
    have hb : Memory.readByte (Memory.storeLE m a v (n + 1)) a = v.setWidth 8 := by
      have := Memory.readByte_storeLE (m := m) (a := a) (v := v) (k := 0) (Nat.succ_pos n)
      rw [Nat.add_zero] at this
      rw [this]
      ext i hi
      simp
    rw [Memory.loadLE, hb, Memory.storeLE, ih _ _ _ (by omega)]
    have h3 : 2 ^ (8 * (n + 1)) = 256 * 2 ^ (8 * n) := by rw [Nat.mul_add, Nat.pow_add, Nat.mul_comm]
    rw [h3, Nat.mod_mul]
    simp [BitVec.toNat_setWidth, BitVec.toNat_ushiftRight, Nat.shiftRight_eq_div_pow]

end Sys2Proof.Machine
end

