-- ==== Sys2Proof/Laws/Ops.lean ====
section
/-! SUPPORT. One lemma per shared operation, saying once everything it can answer: operand resolution, how an instruction
ends, the access primitives, and the operations of the families. Proofs cite these and do not unfold. -/

namespace Sys2Proof.Machine

/-! ### Ending an instruction -/

@[simp] theorem complete_ok (s t : State) : complete s (.ok t) = .next t := rfl

@[simp] theorem complete_error (s : State) (e : ErrorKind) :
    complete s (.error e) = .next (s.setRun (.faulted e)) := rfl

/-- An instruction that ends through `complete` always answers a next state: its new state or the fault. -/
theorem complete_cases {s t : State} {r : Except ErrorKind State} (h : complete s r = .next t) :
    r = .ok t ∨ ∃ e, r = .error e ∧ t = s.setRun (.faulted e) := by
  cases r with
  | ok u => exact .inl (by cases h; rfl)
  | error e => exact .inr ⟨e, rfl, by cases h; rfl⟩

theorem complete_next (s : State) (r : Except ErrorKind State) : ∃ t, complete s r = .next t := by
  cases r with
  | ok u => exact ⟨u, rfl⟩
  | error e => exact ⟨_, rfl⟩

/-- A chain of operations answers a value exactly when each one does. -/
theorem bind_ok {α β : Type} {x : Except ErrorKind α} {f : α → Except ErrorKind β} {b : β} :
    (x >>= f) = .ok b ↔ ∃ a, x = .ok a ∧ f a = .ok b := by
  cases x with
  | ok a => exact ⟨fun h => ⟨a, rfl, h⟩, fun ⟨_, h, h'⟩ => by cases h; exact h'⟩
  | error e => exact ⟨fun h => (nomatch h), fun ⟨_, h, _⟩ => (nomatch h)⟩

/-- A chain of operations fails with the first failure in it. -/
theorem bind_error {α β : Type} {x : Except ErrorKind α} {f : α → Except ErrorKind β} {e : ErrorKind} :
    (x >>= f) = .error e ↔ x = .error e ∨ ∃ a, x = .ok a ∧ f a = .error e := by
  cases x with
  | ok a =>
    constructor
    · exact fun h => .inr ⟨a, rfl, h⟩
    · rintro (h | ⟨_, h, h'⟩)
      · exact nomatch h
      · cases h; exact h'
  | error e' =>
    constructor
    · intro h; cases h; exact .inl rfl
    · rintro (h | ⟨_, h, -⟩)
      · cases h; rfl
      · exact nomatch h

@[simp] theorem ok_bind {α β : Type} (a : α) (f : α → Except ErrorKind β) :
    ((Except.ok a : Except ErrorKind α) >>= f) = f a := rfl

@[simp] theorem error_bind {α β : Type} (e : ErrorKind) (f : α → Except ErrorKind β) :
    ((Except.error e : Except ErrorKind α) >>= f) = .error e := rfl

@[simp] theorem pure_eq_ok {α : Type} (a : α) : (pure a : Except ErrorKind α) = .ok a := rfl

/-! ### Operand resolution -/

/-- A valid selector resolves to its slot (10_state.md R15). -/
theorem resolve_valid {sel : Sel} {d : Fin 16} (h : sel.toNat = d.val) : resolve sel = .ok d := by
  have : sel.toNat < 16 := h ▸ d.isLt
  simp only [resolve, this, dif_pos]
  exact congrArg Except.ok (Fin.ext h)

/-- An invalid selector fails with its own value (R15). -/
theorem resolve_invalid {sel : Sel} (h : 16 ≤ sel.toNat) : resolve sel = .error (.invalidRegister sel) := by
  simp only [resolve, Nat.not_lt.mpr h, dif_neg, not_false_iff]

theorem resolve_eq_ok {sel : Sel} {d : Fin 16} : resolve sel = .ok d ↔ sel.toNat = d.val := by
  refine ⟨fun h => ?_, resolve_valid⟩
  by_cases hs : sel.toNat < 16
  · rw [resolve_valid (d := ⟨sel.toNat, hs⟩) rfl] at h
    cases h
    rfl
  · rw [resolve_invalid (Nat.not_lt.mp hs)] at h
    exact nomatch h

theorem resolve_eq_error {sel : Sel} {e : ErrorKind} :
    resolve sel = .error e ↔ 16 ≤ sel.toNat ∧ e = .invalidRegister sel := by
  by_cases hs : sel.toNat < 16
  · rw [resolve_valid (d := ⟨sel.toNat, hs⟩) rfl]
    constructor
    · exact fun h => nomatch h
    · exact fun h => absurd h.1 (Nat.not_le.mpr hs)
  · rw [resolve_invalid (Nat.not_lt.mp hs)]
    constructor
    · intro h; cases h; exact ⟨Nat.not_lt.mp hs, rfl⟩
    · rintro ⟨-, rfl⟩; rfl

@[simp] theorem operand_imm {n : Nat} (v : BitVec n) (s : State) : operand (.imm v) s = .ok (sext v) := rfl

theorem operand_reg_valid {n : Nat} {sel : Sel} {r : Fin 16} (s : State) (h : sel.toNat = r.val) :
    operand (.reg sel : Operand n) s = .ok (s.reg r) := by
  simp [operand, resolve_valid h]

theorem operand_reg_invalid {n : Nat} {sel : Sel} (s : State) (h : 16 ≤ sel.toNat) :
    operand (.reg sel : Operand n) s = .error (.invalidRegister sel) := by
  simp [operand, resolve_invalid h]

/-- The shift amount is the operand modulo 64 (44_bitwise_shift.md R105). -/
theorem shiftAmount_eq (b : Word) : shiftAmount b = b.toNat % 64 := by
  simp [shiftAmount]

/-- The access size is `2^ds` (30_encoding.md R68). -/
theorem sizeBytes_ofField (ds : BitVec 2) : sizeBytes (.ofField ds) = 2 ^ ds.toNat := by
  revert ds
  decide

theorem sizeBytes_cases (ds : DataSize) :
    sizeBytes ds = 1 ∨ sizeBytes ds = 2 ∨ sizeBytes ds = 4 ∨ sizeBytes ds = 8 := by
  cases ds <;> decide

/-! ### Access primitives -/

theorem inBounds_iff {addr : Word} {n : Nat} {s : State} : inBounds addr n s = true ↔ addr.toNat + n ≤ 8 * s.cap := by
  simp [inBounds]

/-- `MemRead` inside the data space (20_memory.md R36). -/
theorem memRead_ok {addr : Word} {n : Nat} {s : State} (h : addr.toNat + n ≤ 8 * s.cap) :
    memRead addr n s = .ok (BitVec.ofNat 64 (Memory.loadLE s.mem addr.toNat n)) := by
  simp [memRead, inBounds, h]

/-- `MemRead` outside the data space (20_memory.md R36, R38). -/
theorem memRead_fault {addr : Word} {n : Nat} {s : State} (h : 8 * s.cap < addr.toNat + n) :
    memRead addr n s = .error (.memoryFault addr n) := by
  simp [memRead, inBounds, Nat.not_le.mpr h]

/-- `MemWrite` inside the data space (20_memory.md R37). -/
theorem memWrite_ok {addr : Word} {n : Nat} {v : Word} {s : State} (h : addr.toNat + n ≤ 8 * s.cap) :
    memWrite addr n v s = .ok (s.setMem (Memory.storeLE s.mem addr.toNat v n)) := by
  simp [memWrite, inBounds, h]

/-- `MemWrite` outside the data space (20_memory.md R37, R38). -/
theorem memWrite_fault {addr : Word} {n : Nat} {v : Word} {s : State} (h : 8 * s.cap < addr.toNat + n) :
    memWrite addr n v s = .error (.memoryFault addr n) := by
  simp [memWrite, inBounds, Nat.not_le.mpr h]

/-- If `memWrite` answers a state, it is `s` with the bytes stored, and they were inside the data space. -/
theorem memWrite_cases {addr : Word} {n : Nat} {v : Word} {s t : State} (h : memWrite addr n v s = .ok t) :
    addr.toNat + n ≤ 8 * s.cap ∧ t = s.setMem (Memory.storeLE s.mem addr.toNat v n) := by
  by_cases hb : addr.toNat + n ≤ 8 * s.cap
  · rw [memWrite_ok hb] at h
    cases h
    exact ⟨hb, rfl⟩
  · rw [memWrite_fault (Nat.not_le.mp hb)] at h
    exact nomatch h

/-! ### The operations of the families -/

/-- If a move answers a state, it wrote one register and nothing else. -/
theorem moveOp_cases {f : Word → Word} {dst : Sel} {o : Operand 21} {s t : State}
    (h : moveOp f dst o s = .ok t) : ∃ d v, dst.toNat = d.val ∧ operand o s = .ok v ∧ t = s.setReg d (f v) := by
  obtain ⟨d, hd, h⟩ := bind_ok.mp h
  obtain ⟨v, hv, h⟩ := bind_ok.mp h
  cases h
  exact ⟨d, v, resolve_eq_ok.mp hd, hv, rfl⟩

/-- If a move-accumulate answers a state, it ORed the shifted operand into one register and did nothing else. -/
theorem accumulateOp_cases {dst : Sel} {quad : BitVec 2} {o : Operand 18} {s t : State}
    (h : accumulateOp dst quad o s = .ok t) :
    ∃ d v, dst.toNat = d.val ∧ operand o s = .ok v ∧ t = s.setReg d (s.reg d ||| (v <<< (16 * quad.toNat))) := by
  obtain ⟨d, hd, h⟩ := bind_ok.mp h
  obtain ⟨v, hv, h⟩ := bind_ok.mp h
  cases h
  exact ⟨d, v, resolve_eq_ok.mp hd, hv, rfl⟩

/-- If a format R operation answers a state, it wrote one register and nothing else. -/
theorem aluOp_cases {f : Word → Word → Word} {dst src : Sel} {o : Operand 16} {s t : State}
    (h : aluOp f dst src o s = .ok t) :
    ∃ d a b, dst.toNat = d.val ∧ src.toNat = a.val ∧ operand o s = .ok b ∧ t = s.setReg d (f (s.reg a) b) := by
  obtain ⟨d, hd, h⟩ := bind_ok.mp h
  obtain ⟨a, ha, h⟩ := bind_ok.mp h
  obtain ⟨b, hb, h⟩ := bind_ok.mp h
  cases h
  exact ⟨d, a, b, resolve_eq_ok.mp hd, resolve_eq_ok.mp ha, hb, rfl⟩

/-! ### Branches, field by field -/

@[simp] theorem branchTo_ip (link : Bool) (target : Word) (s : State) : (branchTo link target s).ip = target := by
  cases link <;> rfl
@[simp] theorem branchTo_fp (link : Bool) (target : Word) (s : State) :
    (branchTo link target s).fp = if link then s.ip else s.fp := by cases link <;> rfl
@[simp] theorem branchTo_x (link : Bool) (target : Word) (s : State) : (branchTo link target s).x = s.x := by
  cases link <;> rfl
@[simp] theorem branchTo_xr (link : Bool) (target : Word) (s : State) : (branchTo link target s).xr = s.xr := by
  cases link <;> rfl
@[simp] theorem branchTo_iret (link : Bool) (target : Word) (s : State) : (branchTo link target s).iret = s.iret := by
  cases link <;> rfl
@[simp] theorem branchTo_sysc (link : Bool) (target : Word) (s : State) : (branchTo link target s).sysc = s.sysc := by
  cases link <;> rfl
@[simp] theorem branchTo_sp (link : Bool) (target : Word) (s : State) : (branchTo link target s).sp = s.sp := by
  cases link <;> rfl
@[simp] theorem branchTo_lastCmp (link : Bool) (target : Word) (s : State) :
    (branchTo link target s).lastCmp = s.lastCmp := by cases link <;> rfl
@[simp] theorem branchTo_mem (link : Bool) (target : Word) (s : State) : (branchTo link target s).mem = s.mem := by
  cases link <;> rfl
@[simp] theorem branchTo_run (link : Bool) (target : Word) (s : State) : (branchTo link target s).run = s.run := by
  cases link <;> rfl
@[simp] theorem branchTo_code (link : Bool) (target : Word) (s : State) : (branchTo link target s).code = s.code := by
  cases link <;> rfl
@[simp] theorem branchTo_cap (link : Bool) (target : Word) (s : State) : (branchTo link target s).cap = s.cap := by
  cases link <;> rfl
@[simp] theorem branchTo_reg (link : Bool) (target : Word) (s : State) (r : Fin 16) :
    (branchTo link target s).reg r = s.reg r := by cases link <;> rfl
@[simp] theorem branchTo_byteAt (link : Bool) (target : Word) (s : State) (a : Nat) :
    (branchTo link target s).byteAt a = s.byteAt a := by cases link <;> rfl

/-! ### The stack controller -/

theorem push_ok {v : Word} {s : State} (h : s.sp < s.cap) :
    push v s = (true, (s.setStackWord s.sp v).setSp (s.sp + 1)) := by simp [push, h]

theorem push_full {v : Word} {s : State} (h : s.cap ≤ s.sp) : push v s = (false, s) := by
  simp [push, Nat.not_lt.mpr h]

/-- The word just written is the word read. -/
theorem stackWord_setStackWord_self (s : State) (j : Nat) (v : Word) : (s.setStackWord j v).stackWord j = v := by
  apply BitVec.eq_of_toNat_eq
  have := v.isLt
  simp only [State.stackWord, State.setStackWord, State.setMem_mem, BitVec.toNat_ofNat,
    Memory.loadLE_storeLE _ _ _ _ (Nat.le_refl 8)]
  omega

/-- Writing one stack word leaves the others alone. -/
theorem stackWord_setStackWord_of_ne (s : State) {j k : Nat} (v : Word) (h : k ≠ j) :
    (s.setStackWord j v).stackWord k = s.stackWord k := by
  have hb : ∀ i, i < 8 → Memory.readByte (Memory.storeLE s.mem (8 * j) v 8) (8 * k + i) =
      Memory.readByte s.mem (8 * k + i) := fun i hi =>
    Memory.readByte_storeLE_outside (by omega)
  simp only [State.stackWord, State.setStackWord, State.setMem_mem]
  rw [Memory.loadLE_congr hb]

@[simp] theorem setStackWord_sp (s : State) (j : Nat) (v : Word) : (s.setStackWord j v).sp = s.sp := rfl
@[simp] theorem setStackWord_cap (s : State) (j : Nat) (v : Word) : (s.setStackWord j v).cap = s.cap := rfl
@[simp] theorem stackWord_setSp (s : State) (n j : Nat) : (s.setSp n).stackWord j = s.stackWord j := rfl

end Sys2Proof.Machine
end

