-- ==== Sys2Proof/Laws/Exec.lean ====
section
/-! SUPPORT. What `exec` and `step` can do, said once: every claim about all instructions is derived from these. -/

namespace Sys2Proof.Machine

/-- Everything an instruction can do to a state: raise a fault, halt, write one register, branch (BR only), write the
latch (CMP only), or store inside the data space (STR only). -/
inductive ExecEffect (i : Instr) (s : State) : State → Prop
  | fault (e : ErrorKind) : ExecEffect i s (s.setRun (.faulted e))
  | halt (k : HaltKind) (h : i = .halt ∨ i = .ret ∨ i = .syscall ∨ i = .call) :
      ExecEffect i s (s.setRun (.halted k))
  | register (d : Fin 16) (v : Word) : ExecEffect i s (s.setReg d v)
  | branch (link : Bool) (target : Word) (h : (∃ imm, i = .brImm link imm) ∨ ∃ reg, i = .brReg link reg) :
      ExecEffect i s (branchTo link target s)
  | latch (b : Bool) (h : ∃ cc lhs rhs, i = .cmp cc lhs rhs) : ExecEffect i s (s.setLatch b)
  | store (ds : DataSize) (rt base : Sel) (off : BitVec 14) (bs r : Fin 16) (h : i = .str ds rt base off)
      (hb : base.toNat = bs.val) (hr : rt.toNat = r.val)
      (hin : (effectiveAddress bs off s).toNat + sizeBytes ds ≤ 8 * s.cap) :
      ExecEffect i s (s.setMem (Memory.storeLE s.mem (effectiveAddress bs off s).toNat (s.reg r) (sizeBytes ds)))

/-- An instruction does one of the things `ExecEffect` lists, and nothing else. -/
theorem exec_cases {i : Instr} {s t : State} (h : exec i s = .next t) : ExecEffect i s t := by
  have alu : ∀ {f dst src} {o : Operand 16}, complete s (aluOp f dst src o s) = .next t → ExecEffect i s t := by
    intro f dst src o h
    rcases complete_cases h with h | ⟨e, -, rfl⟩
    · obtain ⟨d, a, b, -, -, -, rfl⟩ := aluOp_cases h
      exact .register _ _
    · exact .fault e
  have move : ∀ {f dst} {o : Operand 21}, complete s (moveOp f dst o s) = .next t → ExecEffect i s t := by
    intro f dst o h
    rcases complete_cases h with h | ⟨e, -, rfl⟩
    · obtain ⟨d, v, -, -, rfl⟩ := moveOp_cases h
      exact .register _ _
    · exact .fault e
  have acc : ∀ {dst quad} {o : Operand 18}, complete s (accumulateOp dst quad o s) = .next t →
      ExecEffect i s t := by
    intro dst quad o h
    rcases complete_cases h with h | ⟨e, -, rfl⟩
    · obtain ⟨d, v, -, -, rfl⟩ := accumulateOp_cases h
      exact .register _ _
    · exact .fault e
  cases i with
  | halt => cases h; exact .halt .halt (by simp)
  | ret => cases h; exact .halt .ret (by simp)
  | syscall => cases h; exact .halt .syscall (by simp)
  | call => cases h; exact .halt .call (by simp)
  | mvnotImm dst imm => exact move h
  | mvnotReg dst src => exact move h
  | mvnegImm dst imm => exact move h
  | mvnegReg dst src => exact move h
  | movImm dst imm => exact move h
  | movReg dst src => exact move h
  | mvaImm dst quad imm => exact acc h
  | mvaReg dst quad src => exact acc h
  | brImm link imm => cases h; exact .branch link _ (.inl ⟨imm, rfl⟩)
  | brReg link reg =>
    rcases complete_cases h with h | ⟨e, -, rfl⟩
    · obtain ⟨r, -, h⟩ := bind_ok.mp h
      cases h
      exact .branch link _ (.inr ⟨reg, rfl⟩)
    · exact .fault e
  | lea dst imm =>
    rcases complete_cases h with h | ⟨e, -, rfl⟩
    · obtain ⟨d, -, h⟩ := bind_ok.mp h
      cases h
      exact .register d _
    · exact .fault e
  | addImm dst src imm => exact alu h
  | addReg dst src src2 => exact alu h
  | subImm dst src imm => exact alu h
  | subReg dst src src2 => exact alu h
  | multImm dst src imm => exact alu h
  | multReg dst src src2 => exact alu h
  | div => cases h; exact .fault _
  | mod => cases h; exact .fault _
  | andImm dst src imm => exact alu h
  | andReg dst src src2 => exact alu h
  | orImm dst src imm => exact alu h
  | orReg dst src src2 => exact alu h
  | xorImm dst src imm => exact alu h
  | xorReg dst src src2 => exact alu h
  | lslImm dst src imm => exact alu h
  | lslReg dst src src2 => exact alu h
  | lsrImm dst src imm => exact alu h
  | lsrReg dst src src2 => exact alu h
  | asrImm dst src imm => exact alu h
  | asrReg dst src src2 => exact alu h
  | cmp cc lhs rhs =>
    rcases complete_cases h with h | ⟨e, -, rfl⟩
    · obtain ⟨l, -, h⟩ := bind_ok.mp h
      obtain ⟨r, -, h⟩ := bind_ok.mp h
      obtain ⟨c, -, h⟩ := bind_ok.mp h
      cases h
      exact .latch c ⟨cc, lhs, rhs, rfl⟩
    · exact .fault e
  | cset cc lhs rhs dst =>
    rcases complete_cases h with h | ⟨e, -, rfl⟩
    · obtain ⟨l, -, h⟩ := bind_ok.mp h
      obtain ⟨r, -, h⟩ := bind_ok.mp h
      obtain ⟨d, -, h⟩ := bind_ok.mp h
      obtain ⟨c, -, h⟩ := bind_ok.mp h
      cases h
      exact .register d _
    · exact .fault e
  | ldr ds sx rt base off =>
    rcases complete_cases h with h | ⟨e, -, rfl⟩
    · obtain ⟨r, -, h⟩ := bind_ok.mp h
      obtain ⟨bs, -, h⟩ := bind_ok.mp h
      obtain ⟨v, -, h⟩ := bind_ok.mp h
      cases h
      exact .register r _
    · exact .fault e
  | str ds rt base off =>
    rcases complete_cases h with h | ⟨e, -, rfl⟩
    · obtain ⟨r, hr, h⟩ := bind_ok.mp h
      obtain ⟨bs, hb, h⟩ := bind_ok.mp h
      obtain ⟨hin, rfl⟩ := memWrite_cases h
      exact .store ds rt base off bs r rfl (resolve_eq_ok.mp hb) (resolve_eq_ok.mp hr) hin
    · exact .fault e

/-- Every instruction, in every state, answers a next state: a fault of the machine is one (60_exceptions.md R114). -/
theorem exec_next (i : Instr) (s : State) : ∃ t, exec i s = .next t := by
  cases i with
  | halt | ret | syscall | call => exact ⟨_, rfl⟩
  | div | mod | brImm => exact ⟨_, rfl⟩
  | mvnotImm | mvnotReg | mvnegImm | mvnegReg | movImm | movReg => exact complete_next s _
  | mvaImm | mvaReg | brReg | lea => exact complete_next s _
  | addImm | addReg | subImm | subReg | multImm | multReg => exact complete_next s _
  | andImm | andReg | orImm | orReg | xorImm | xorReg => exact complete_next s _
  | lslImm | lslReg | lsrImm | lsrReg | asrImm | asrReg => exact complete_next s _
  | cmp | cset | ldr | str => exact complete_next s _

/-- What a step does, by its fetch and its decoding: the four ways it can go (10_state.md R27). -/
theorem step_cases (s : State) :
    (s.run ≠ .running ∧ step s = .fault .notRunning) ∨
    (s.run = .running ∧ s.code[s.ip.toNat]? = none ∧ step s = raise (.fetchFault s.ip) s) ∨
    (∃ w op, s.run = .running ∧ s.code[s.ip.toNat]? = some w ∧ decode w = .unknownOpcode op ∧
      step s = raise (.unknownOpcode op) (advanceIp s)) ∨
    (∃ w i, s.run = .running ∧ s.code[s.ip.toNat]? = some w ∧ decode w = .instr i ∧
      step s = exec i (advanceIp s)) := by
  unfold step
  by_cases hr : s.run = .running
  · have hb : s.isRunning = true := by simp [State.isRunning, hr]
    rw [if_pos hb]
    unfold codeRead
    cases hc : s.code[s.ip.toNat]? with
    | none => exact .inr (.inl ⟨hr, rfl, rfl⟩)
    | some w =>
      cases hd : decode w with
      | unknownOpcode op => exact .inr (.inr (.inl ⟨w, op, hr, rfl, hd, by simp [hd]⟩))
      | instr i => exact .inr (.inr (.inr ⟨w, i, hr, rfl, hd, by simp [hd]⟩))
  · have hb : s.isRunning = false := by simp [State.isRunning, hr]
    exact .inl ⟨hr, by simp [hb]⟩

end Sys2Proof.Machine
end

