-- ==== Sys2Proof/Laws/Faults.lean ====
section
/-! SUPPORT. Which fault an instruction raises, said once for all of them (60_exceptions.md R116), and the step's ways
to a next state in the terms of Safety.lean. -/

namespace Sys2Proof.Machine

/-- The fault of the first invalid selector (30_encoding.md R74). -/
def selectorFault (sels : List Sel) : Option ErrorKind :=
  (sels.find? fun sel => decide (16 ≤ sel.toNat)).map .invalidRegister

/-- The fault an instruction raises once its selectors are valid (R116, points 3, 5 and 6). -/
def executionFault (i : Instr) (s : State) : Option ErrorKind :=
  match i with
  | .div => some (.unsupported 10#5)
  | .mod => some (.unsupported 11#5)
  | .cmp cc _ _ => if 11 ≤ cc.toNat then some (.unsupported 18#5) else none
  | .cset cc _ _ _ => if 11 ≤ cc.toNat then some (.unsupported 18#5) else none
  | .ldr ds _ _ base off =>
    let addr := addressOf (s.x.toList.getD base.toNat 0) off
    if 8 * s.cap < addr.toNat + sizeBytes ds then some (.memoryFault addr (sizeBytes ds)) else none
  | .str ds _ base off =>
    let addr := addressOf (s.x.toList.getD base.toNat 0) off
    if 8 * s.cap < addr.toNat + sizeBytes ds then some (.memoryFault addr (sizeBytes ds)) else none
  | _ => none

/-- The fault an instruction raises, if any. -/
def instrFault (i : Instr) (s : State) : Option ErrorKind :=
  (selectorFault i.selectors).or (executionFault i s)

theorem evalCond_reserved {cc : BitVec 4} (h : 11 ≤ cc.toNat) (a b : Word) :
    evalCond cc a b = .error (.unsupported 18#5) := by
  have : condOfCode cc = none := by
    revert h cc
    decide
  simp [evalCond, this]

theorem evalCond_defined {cc : BitVec 4} (h : ¬ 11 ≤ cc.toNat) (a b : Word) : ∃ c, evalCond cc a b = .ok c := by
  have : (condOfCode cc).isSome = true := by
    revert h cc
    decide
  obtain ⟨c, hc⟩ := Option.isSome_iff_exists.mp this
  exact ⟨condHolds c a b, by simp [evalCond, hc]⟩

theorem effectiveAddress_eq (bs : Fin 16) (off : BitVec 14) (s : State) :
    effectiveAddress bs off s = addressOf (s.reg bs) off := add_sext _ _ (by omega) (by omega)

/-- The register a valid selector designates, read from the list of slots. -/
theorem getD_eq_reg (s : State) {sel : Sel} {r : Fin 16} (h : sel.toNat = r.val) :
    s.x.toList.getD sel.toNat 0 = s.reg r := by
  rw [h]
  simp [State.reg]

theorem sel_cases (sel : Sel) :
    (16 ≤ sel.toNat ∧ resolve sel = .error (.invalidRegister sel)) ∨
    (¬ 16 ≤ sel.toNat ∧ ∃ d : Fin 16, sel.toNat = d.val ∧ resolve sel = .ok d) := by
  by_cases h : 16 ≤ sel.toNat
  · exact .inl ⟨h, resolve_invalid h⟩
  · exact .inr ⟨h, ⟨sel.toNat, by omega⟩, rfl, resolve_valid rfl⟩

theorem moveOp_fault_iff {f : Word → Word} {dst : Sel} {o : Operand 21} {s t : State} (hs : s.run = .running)
    (h : complete s (moveOp f dst o s) = .next t) (e : ErrorKind) :
    t.run = .faulted e ↔
      selectorFault (dst :: match o with | .imm _ => [] | .reg src => [src]) = some e := by
  rcases sel_cases dst with ⟨a, b⟩ | ⟨a, d, -, b⟩ <;> cases o with
  | imm v =>
    simp [moveOp, operand, b, selectorFault, a] at h ⊢
    subst h
    simp [hs]
  | reg src =>
    rcases sel_cases src with ⟨p, q⟩ | ⟨p, r, -, q⟩ <;>
      simp [moveOp, operand, b, q, selectorFault, a, p] at h ⊢ <;> subst h <;> simp [hs]

theorem accumulateOp_fault_iff {dst : Sel} {quad : BitVec 2} {o : Operand 18} {s t : State}
    (hs : s.run = .running) (h : complete s (accumulateOp dst quad o s) = .next t) (e : ErrorKind) :
    t.run = .faulted e ↔
      selectorFault (dst :: match o with | .imm _ => [] | .reg src => [src]) = some e := by
  rcases sel_cases dst with ⟨a, b⟩ | ⟨a, d, -, b⟩ <;> cases o with
  | imm v =>
    simp [accumulateOp, operand, b, selectorFault, a] at h ⊢
    subst h
    simp [hs]
  | reg src =>
    rcases sel_cases src with ⟨p, q⟩ | ⟨p, r, -, q⟩ <;>
      simp [accumulateOp, operand, b, q, selectorFault, a, p] at h ⊢ <;> subst h <;> simp [hs]

theorem aluOp_fault_iff {f : Word → Word → Word} {dst src : Sel} {o : Operand 16} {s t : State}
    (hs : s.run = .running) (h : complete s (aluOp f dst src o s) = .next t) (e : ErrorKind) :
    t.run = .faulted e ↔
      selectorFault (dst :: src :: match o with | .imm _ => [] | .reg src2 => [src2]) = some e := by
  rcases sel_cases dst with ⟨a, b⟩ | ⟨a, d, -, b⟩ <;> rcases sel_cases src with ⟨k, l⟩ | ⟨k, m, -, l⟩ <;> cases o with
  | imm v =>
    simp [aluOp, operand, b, l, selectorFault, a, k] at h ⊢
    subst h
    simp [hs]
  | reg src2 =>
    rcases sel_cases src2 with ⟨p, q⟩ | ⟨p, r, -, q⟩ <;>
      simp [aluOp, operand, b, l, q, selectorFault, a, k, p] at h ⊢ <;> subst h <;> simp [hs]

/-- An instruction run in a running machine ends faulted exactly with the fault `instrFault` names. -/
theorem exec_fault_iff {i : Instr} {s t : State} (hs : s.run = .running) (h : exec i s = .next t) (e : ErrorKind) :
    t.run = .faulted e ↔ instrFault i s = some e := by
  cases i with
  | halt | ret | syscall | call => cases h; simp [instrFault, executionFault, selectorFault, Instr.selectors]
  | div | mod => cases h; simp [instrFault, executionFault, selectorFault, Instr.selectors]
  | mvnotImm | mvnegImm | movImm | mvnotReg | mvnegReg | movReg =>
    simpa [instrFault, executionFault, Instr.selectors] using moveOp_fault_iff hs h e
  | mvaImm | mvaReg => simpa [instrFault, executionFault, Instr.selectors] using accumulateOp_fault_iff hs h e
  | brImm => cases h; simp [instrFault, executionFault, selectorFault, Instr.selectors, hs]
  | brReg link reg =>
    rcases sel_cases reg with ⟨a, b⟩ | ⟨a, d, -, b⟩ <;>
      simp [exec, execBrReg, b, instrFault, executionFault, selectorFault, Instr.selectors, a] at h ⊢ <;>
      subst h <;> simp [hs]
  | lea dst imm =>
    rcases sel_cases dst with ⟨a, b⟩ | ⟨a, d, -, b⟩ <;>
      simp [exec, execLea, b, instrFault, executionFault, selectorFault, Instr.selectors, a] at h ⊢ <;>
      subst h <;> simp [hs]
  | addImm | subImm | multImm | andImm | orImm | xorImm | lslImm | lsrImm | asrImm =>
    simpa [instrFault, executionFault, Instr.selectors] using aluOp_fault_iff hs h e
  | addReg | subReg | multReg | andReg | orReg | xorReg | lslReg | lsrReg | asrReg =>
    simpa [instrFault, executionFault, Instr.selectors] using aluOp_fault_iff hs h e
  | cmp cc lhs rhs =>
    simp only [exec, execCmp] at h
    simp only [instrFault, executionFault, Instr.selectors, selectorFault]
    rcases sel_cases lhs with ⟨a, b⟩ | ⟨a, l, -, b⟩ <;> rcases sel_cases rhs with ⟨p, q⟩ | ⟨p, r, -, q⟩
    · simp [b, a] at h ⊢; subst h; simp
    · simp [b, a] at h ⊢; subst h; simp
    · simp [b, a, q, p] at h ⊢; subst h; simp
    · by_cases hc : 11 ≤ cc.toNat
      · simp [b, a, q, p, evalCond_reserved hc, hc] at h ⊢; subst h; simp
      · obtain ⟨c, hc'⟩ := evalCond_defined hc (s.reg l) (s.reg r)
        simp [b, a, q, p, hc', hc] at h ⊢; subst h; simp [hs]
  | cset cc lhs rhs dst =>
    simp only [exec, execCset] at h
    simp only [instrFault, executionFault, Instr.selectors, selectorFault]
    rcases sel_cases lhs with ⟨a, b⟩ | ⟨a, l, -, b⟩
    · simp [b, a] at h ⊢; subst h; simp
    rcases sel_cases rhs with ⟨p, q⟩ | ⟨p, r, -, q⟩
    · simp [b, a, q, p] at h ⊢; subst h; simp
    rcases sel_cases dst with ⟨k, m⟩ | ⟨k, d, -, m⟩
    · simp [b, a, q, p, m, k] at h ⊢; subst h; simp
    by_cases hc : 11 ≤ cc.toNat
    · simp [b, a, q, p, m, k, evalCond_reserved hc, hc] at h ⊢; subst h; simp
    · obtain ⟨c, hc'⟩ := evalCond_defined hc (s.reg l) (s.reg r)
      simp [b, a, q, p, m, k, hc', hc] at h ⊢; subst h; simp [hs]
  | ldr ds sx rt base off =>
    simp only [exec, execLdr] at h
    simp only [instrFault, executionFault, Instr.selectors, selectorFault]
    rcases sel_cases rt with ⟨a, b⟩ | ⟨a, d, -, b⟩
    · simp [b, a] at h ⊢; subst h; simp
    rcases sel_cases base with ⟨p, q⟩ | ⟨p, bs, hbs, q⟩
    · simp [b, a, q, p] at h ⊢; subst h; simp
    rw [getD_eq_reg s hbs, ← effectiveAddress_eq]
    by_cases hc : 8 * s.cap < (effectiveAddress bs off s).toNat + sizeBytes ds
    · simp only [b, q, ok_bind, memRead_fault hc, error_bind] at h
      simp [a, p, hc] at h ⊢; subst h; simp
    · simp only [b, q, ok_bind, memRead_ok (Nat.not_lt.mp hc)] at h
      simp [a, p, hc] at h ⊢; subst h; simp [hs]
  | str ds rt base off =>
    simp only [exec, execStr] at h
    simp only [instrFault, executionFault, Instr.selectors, selectorFault]
    rcases sel_cases rt with ⟨a, b⟩ | ⟨a, d, -, b⟩
    · simp [b, a] at h ⊢; subst h; simp
    rcases sel_cases base with ⟨p, q⟩ | ⟨p, bs, hbs, q⟩
    · simp [b, a, q, p] at h ⊢; subst h; simp
    rw [getD_eq_reg s hbs, ← effectiveAddress_eq]
    by_cases hc : 8 * s.cap < (effectiveAddress bs off s).toNat + sizeBytes ds
    · simp only [b, q, ok_bind, memWrite_fault hc] at h
      simp [a, p, hc] at h ⊢; subst h; simp
    · simp only [b, q, ok_bind, memWrite_ok (Nat.not_lt.mp hc)] at h
      simp [a, p, hc] at h ⊢; subst h; simp [hs]

/-- A step to a next state, in three ways: a failed fetch, an unknown opcode, or an executed instruction. -/
theorem step_next_cases {s t : State} (h : step s = .next t) :
    (s.run = .running ∧ s.code[s.ip.toNat]? = none ∧ t = s.setRun (.faulted (.fetchFault s.ip))) ∨
    (∃ w op, s.aboutToRun w ∧ decode w = .unknownOpcode op ∧
      t = s.fetched.setRun (.faulted (.unknownOpcode op))) ∨
    (∃ w i, s.aboutToRun w ∧ decode w = .instr i ∧ exec i s.fetched = .next t) := by
  rcases step_cases s with ⟨-, h'⟩ | ⟨a, b, h'⟩ | ⟨w, op, a, b, c, h'⟩ | ⟨w, i, a, b, c, h'⟩ <;> rw [h'] at h
  · cases h
  · cases h; exact .inl ⟨a, b, rfl⟩
  · cases h; exact .inr (.inl ⟨w, op, ⟨a, b⟩, c, rfl⟩)
  · exact .inr (.inr ⟨w, i, ⟨a, b⟩, c, h⟩)

/-- `withFetchWord` places its word where the next step fetches. -/
theorem aboutToRun_withFetchWord (s : State) (nbits w : Nat) :
    (s.withFetchWord nbits w).aboutToRun (BitVec.ofNat 32 (w % 2 ^ nbits)) := by
  refine ⟨rfl, ?_⟩
  simp only [State.withFetchWord, placeWord]
  rw [List.getElem?_set_self]
  simp only [List.length_append, List.length_replicate]
  omega

end Sys2Proof.Machine
end

