-- ==== Sys2Proof/Laws/PerInstr.lean ====
section
/-! SUPPORT. Family TableRow: the word the encoder gives an instruction is a word of that instruction's row of
spec/opcode_table.json (its match under its mask), and has every ignored bit of its form at 0 (30_encoding.md R73,
R78). One lemma per format, then one per constructor. -/

namespace Sys2Proof.Laws.TableRow

/-- The statement, of an instruction as syntax. -/
def Statement (i : Instr) : Prop :=
  encode i &&& i.tableBits.2 = i.tableBits.1 ∧ encode i &&& i.ignoredBits = 0

/-- Two words agree under a mask when they agree bit by bit. -/
theorem and_eq_of_bits {w m v : InstrWord}
    (h : ∀ k, k < 32 → (w.getLsbD k && m.getLsbD k) = v.getLsbD k) : w &&& m = v :=
  BitVec.eq_of_getLsbD_eq fun k hk => by rw [BitVec.getLsbD_and]; exact h k hk

theorem encodeH_row (kind : BitVec 2) : encodeH kind &&& 0xFE000000#32 = (0#5 ++ kind ++ 0#25 : BitVec 32) := by
  refine and_eq_of_bits fun k hk => ?_
  simp only [encodeH, BitVec.getLsbD_append]
  interval_cases k <;> simp

theorem encodeH_ignored (kind : BitVec 2) : encodeH kind &&& 0x01FFFFFF#32 = 0 := by
  refine and_eq_of_bits fun k hk => ?_
  simp only [encodeH, BitVec.getLsbD_append]
  interval_cases k <;> simp

theorem encodeMImm_row (op : BitVec 5) (dst : Sel) (imm : BitVec 21) : encodeMImm op dst imm &&& 0xF8200000#32 = (op ++ 0#27 : BitVec 32) := by
  refine and_eq_of_bits fun k hk => ?_
  simp only [encodeMImm, BitVec.getLsbD_append]
  interval_cases k <;> simp

theorem encodeMReg_row (op : BitVec 5) (dst src : Sel) : encodeMReg op dst src &&& 0xF8200000#32 = (op ++ 0#5 ++ 1#1 ++ 0#21 : BitVec 32) := by
  refine and_eq_of_bits fun k hk => ?_
  simp only [encodeMReg, BitVec.getLsbD_append]
  interval_cases k <;> simp

theorem encodeMReg_ignored (op : BitVec 5) (dst src : Sel) : encodeMReg op dst src &&& 0x0000FFFF#32 = 0 := by
  refine and_eq_of_bits fun k hk => ?_
  simp only [encodeMReg, BitVec.getLsbD_append]
  interval_cases k <;> simp

theorem encodeAImm_row (dst : Sel) (quad : BitVec 2) (imm : BitVec 18) : encodeAImm dst quad imm &&& 0xF8080000#32 = 0x20000000#32 := by
  refine and_eq_of_bits fun k hk => ?_
  simp only [encodeAImm, BitVec.getLsbD_append]
  interval_cases k <;> simp

theorem encodeAImm_ignored (dst : Sel) (quad : BitVec 2) (imm : BitVec 18) : encodeAImm dst quad imm &&& 0x00040000#32 = 0 := by
  refine and_eq_of_bits fun k hk => ?_
  simp only [encodeAImm, BitVec.getLsbD_append]
  interval_cases k <;> simp

theorem encodeAReg_row (dst : Sel) (quad : BitVec 2) (src : Sel) : encodeAReg dst quad src &&& 0xF8080000#32 = 0x20080000#32 := by
  refine and_eq_of_bits fun k hk => ?_
  simp only [encodeAReg, BitVec.getLsbD_append]
  interval_cases k <;> simp

theorem encodeAReg_ignored (dst : Sel) (quad : BitVec 2) (src : Sel) : encodeAReg dst quad src &&& 0x00041FFF#32 = 0 := by
  refine and_eq_of_bits fun k hk => ?_
  simp only [encodeAReg, BitVec.getLsbD_append]
  interval_cases k <;> simp

theorem encodeBImm_row (link : Bool) (imm : BitVec 25) : encodeBImm link imm &&& 0xFA000000#32 = 0x28000000#32 := by
  refine and_eq_of_bits fun k hk => ?_
  simp only [encodeBImm, BitVec.getLsbD_append]
  interval_cases k <;> simp

theorem encodeBReg_row (link : Bool) (reg : Sel) : encodeBReg link reg &&& 0xFA000000#32 = 0x2A000000#32 := by
  refine and_eq_of_bits fun k hk => ?_
  simp only [encodeBReg, BitVec.getLsbD_append]
  interval_cases k <;> simp

theorem encodeBReg_ignored (link : Bool) (reg : Sel) : encodeBReg link reg &&& 0x000FFFFF#32 = 0 := by
  refine and_eq_of_bits fun k hk => ?_
  simp only [encodeBReg, BitVec.getLsbD_append]
  interval_cases k <;> simp

theorem encodeL_row (dst : Sel) (imm : BitVec 22) : encodeL dst imm &&& 0xF8000000#32 = 0x30000000#32 := by
  refine and_eq_of_bits fun k hk => ?_
  simp only [encodeL, BitVec.getLsbD_append]
  interval_cases k <;> simp

theorem encodeRImm_row (op : BitVec 5) (dst src : Sel) (imm : BitVec 16) : encodeRImm op dst src imm &&& 0xF8010000#32 = (op ++ 0#27 : BitVec 32) := by
  refine and_eq_of_bits fun k hk => ?_
  simp only [encodeRImm, BitVec.getLsbD_append]
  interval_cases k <;> simp

theorem encodeRReg_row (op : BitVec 5) (dst src src2 : Sel) : encodeRReg op dst src src2 &&& 0xF8010000#32 = (op ++ 0#10 ++ 1#1 ++ 0#16 : BitVec 32) := by
  refine and_eq_of_bits fun k hk => ?_
  simp only [encodeRReg, BitVec.getLsbD_append]
  interval_cases k <;> simp

theorem encodeRReg_ignored (op : BitVec 5) (dst src src2 : Sel) : encodeRReg op dst src src2 &&& 0x000007FF#32 = 0 := by
  refine and_eq_of_bits fun k hk => ?_
  simp only [encodeRReg, BitVec.getLsbD_append]
  interval_cases k <;> simp

theorem encodeCmp_row (cc : BitVec 4) (lhs rhs : Sel) : encodeCmp cc lhs rhs &&& 0xF8400000#32 = 0x90000000#32 := by
  refine and_eq_of_bits fun k hk => ?_
  simp only [encodeCmp, BitVec.getLsbD_append]
  interval_cases k <;> simp

theorem encodeCmp_ignored (cc : BitVec 4) (lhs rhs : Sel) : encodeCmp cc lhs rhs &&& 0x00000FFF#32 = 0 := by
  refine and_eq_of_bits fun k hk => ?_
  simp only [encodeCmp, BitVec.getLsbD_append]
  interval_cases k <;> simp

theorem encodeCset_row (cc : BitVec 4) (lhs rhs dst : Sel) : encodeCset cc lhs rhs dst &&& 0xF8400000#32 = 0x90400000#32 := by
  refine and_eq_of_bits fun k hk => ?_
  simp only [encodeCset, BitVec.getLsbD_append]
  interval_cases k <;> simp

theorem encodeCset_ignored (cc : BitVec 4) (lhs rhs dst : Sel) : encodeCset cc lhs rhs dst &&& 0x0000007F#32 = 0 := by
  refine and_eq_of_bits fun k hk => ?_
  simp only [encodeCset, BitVec.getLsbD_append]
  interval_cases k <;> simp

theorem encodeS_row (op : BitVec 5) (ds : DataSize) (sx : Bool) (rt base : Sel) (off : BitVec 14) : encodeS op ds sx rt base off &&& 0xF8000000#32 = (op ++ 0#27 : BitVec 32) := by
  refine and_eq_of_bits fun k hk => ?_
  simp only [encodeS, BitVec.getLsbD_append]
  interval_cases k <;> simp

theorem encodeStr_ignored (op : BitVec 5) (ds : DataSize) (rt base : Sel) (off : BitVec 14) :
    encodeS op ds false rt base off &&& 0x01000000#32 = 0 := by
  refine and_eq_of_bits fun k hk => ?_
  simp only [encodeS, BitVec.getLsbD_append]
  interval_cases k <;> simp

theorem halt : Statement (.halt) := ⟨rfl, rfl⟩
theorem ret : Statement (.ret) := ⟨rfl, rfl⟩
theorem syscall : Statement (.syscall) := ⟨rfl, rfl⟩
theorem call : Statement (.call) := ⟨rfl, rfl⟩
theorem mvnotImm (dst : Sel) (imm : BitVec 21) : Statement (.mvnotImm dst imm) := ⟨(encodeMImm_row _ _ _).trans rfl, BitVec.and_zero⟩
theorem mvnotReg (dst src : Sel) : Statement (.mvnotReg dst src) := ⟨(encodeMReg_row _ _ _).trans rfl, encodeMReg_ignored _ _ _⟩
theorem mvnegImm (dst : Sel) (imm : BitVec 21) : Statement (.mvnegImm dst imm) := ⟨(encodeMImm_row _ _ _).trans rfl, BitVec.and_zero⟩
theorem mvnegReg (dst src : Sel) : Statement (.mvnegReg dst src) := ⟨(encodeMReg_row _ _ _).trans rfl, encodeMReg_ignored _ _ _⟩
theorem movImm (dst : Sel) (imm : BitVec 21) : Statement (.movImm dst imm) := ⟨(encodeMImm_row _ _ _).trans rfl, BitVec.and_zero⟩
theorem movReg (dst src : Sel) : Statement (.movReg dst src) := ⟨(encodeMReg_row _ _ _).trans rfl, encodeMReg_ignored _ _ _⟩
theorem mvaImm (dst : Sel) (quad : BitVec 2) (imm : BitVec 18) : Statement (.mvaImm dst quad imm) := ⟨encodeAImm_row _ _ _, encodeAImm_ignored _ _ _⟩
theorem mvaReg (dst : Sel) (quad : BitVec 2) (src : Sel) : Statement (.mvaReg dst quad src) := ⟨encodeAReg_row _ _ _, encodeAReg_ignored _ _ _⟩
theorem brImm (link : Bool) (imm : BitVec 25) : Statement (.brImm link imm) := ⟨encodeBImm_row _ _, BitVec.and_zero⟩
theorem brReg (link : Bool) (reg : Sel) : Statement (.brReg link reg) := ⟨encodeBReg_row _ _, encodeBReg_ignored _ _⟩
theorem lea (dst : Sel) (imm : BitVec 22) : Statement (.lea dst imm) := ⟨encodeL_row _ _, BitVec.and_zero⟩
theorem addImm (dst src : Sel) (imm : BitVec 16) : Statement (.addImm dst src imm) := ⟨(encodeRImm_row _ _ _ _).trans rfl, BitVec.and_zero⟩
theorem addReg (dst src src2 : Sel) : Statement (.addReg dst src src2) := ⟨(encodeRReg_row _ _ _ _).trans rfl, encodeRReg_ignored _ _ _ _⟩
theorem subImm (dst src : Sel) (imm : BitVec 16) : Statement (.subImm dst src imm) := ⟨(encodeRImm_row _ _ _ _).trans rfl, BitVec.and_zero⟩
theorem subReg (dst src src2 : Sel) : Statement (.subReg dst src src2) := ⟨(encodeRReg_row _ _ _ _).trans rfl, encodeRReg_ignored _ _ _ _⟩
theorem multImm (dst src : Sel) (imm : BitVec 16) : Statement (.multImm dst src imm) := ⟨(encodeRImm_row _ _ _ _).trans rfl, BitVec.and_zero⟩
theorem multReg (dst src src2 : Sel) : Statement (.multReg dst src src2) := ⟨(encodeRReg_row _ _ _ _).trans rfl, encodeRReg_ignored _ _ _ _⟩
theorem div : Statement (.div) := ⟨rfl, rfl⟩
theorem mod : Statement (.mod) := ⟨rfl, rfl⟩
theorem andImm (dst src : Sel) (imm : BitVec 16) : Statement (.andImm dst src imm) := ⟨(encodeRImm_row _ _ _ _).trans rfl, BitVec.and_zero⟩
theorem andReg (dst src src2 : Sel) : Statement (.andReg dst src src2) := ⟨(encodeRReg_row _ _ _ _).trans rfl, encodeRReg_ignored _ _ _ _⟩
theorem orImm (dst src : Sel) (imm : BitVec 16) : Statement (.orImm dst src imm) := ⟨(encodeRImm_row _ _ _ _).trans rfl, BitVec.and_zero⟩
theorem orReg (dst src src2 : Sel) : Statement (.orReg dst src src2) := ⟨(encodeRReg_row _ _ _ _).trans rfl, encodeRReg_ignored _ _ _ _⟩
theorem xorImm (dst src : Sel) (imm : BitVec 16) : Statement (.xorImm dst src imm) := ⟨(encodeRImm_row _ _ _ _).trans rfl, BitVec.and_zero⟩
theorem xorReg (dst src src2 : Sel) : Statement (.xorReg dst src src2) := ⟨(encodeRReg_row _ _ _ _).trans rfl, encodeRReg_ignored _ _ _ _⟩
theorem lslImm (dst src : Sel) (imm : BitVec 16) : Statement (.lslImm dst src imm) := ⟨(encodeRImm_row _ _ _ _).trans rfl, BitVec.and_zero⟩
theorem lslReg (dst src src2 : Sel) : Statement (.lslReg dst src src2) := ⟨(encodeRReg_row _ _ _ _).trans rfl, encodeRReg_ignored _ _ _ _⟩
theorem lsrImm (dst src : Sel) (imm : BitVec 16) : Statement (.lsrImm dst src imm) := ⟨(encodeRImm_row _ _ _ _).trans rfl, BitVec.and_zero⟩
theorem lsrReg (dst src src2 : Sel) : Statement (.lsrReg dst src src2) := ⟨(encodeRReg_row _ _ _ _).trans rfl, encodeRReg_ignored _ _ _ _⟩
theorem asrImm (dst src : Sel) (imm : BitVec 16) : Statement (.asrImm dst src imm) := ⟨(encodeRImm_row _ _ _ _).trans rfl, BitVec.and_zero⟩
theorem asrReg (dst src src2 : Sel) : Statement (.asrReg dst src src2) := ⟨(encodeRReg_row _ _ _ _).trans rfl, encodeRReg_ignored _ _ _ _⟩
theorem cmp (cc : BitVec 4) (lhs rhs : Sel) : Statement (.cmp cc lhs rhs) := ⟨encodeCmp_row _ _ _, encodeCmp_ignored _ _ _⟩
theorem cset (cc : BitVec 4) (lhs rhs dst : Sel) : Statement (.cset cc lhs rhs dst) := ⟨encodeCset_row _ _ _ _, encodeCset_ignored _ _ _ _⟩
theorem ldr (ds : DataSize) (sx : Bool) (rt base : Sel) (off : BitVec 14) : Statement (.ldr ds sx rt base off) := ⟨(encodeS_row _ _ _ _ _ _).trans rfl, BitVec.and_zero⟩
theorem str (ds : DataSize) (rt base : Sel) (off : BitVec 14) : Statement (.str ds rt base off) := ⟨(encodeS_row _ _ _ _ _ _).trans rfl, encodeStr_ignored _ _ _ _ _⟩

end Sys2Proof.Laws.TableRow
end

