-- ==== Sys2Proof/Laws/Transactions.lean ====
section
/-! SUPPORT. The memory a creation makes (70_reset_and_hazards.md R124): its bytes, its canonical form, its bound; and the
bytes of a stack word. -/

namespace Sys2Proof.Machine

theorem Memory.wf_reset : Memory.wf State.reset.mem = true := rfl

/-- Byte `a` of the initial memory is byte `a mod 8` of word `a / 8` of MEM_INIT (20_memory.md R34). -/
theorem readByte_initialMemory {memInit : Nat → Word} {n a : Nat} (h : a < n) :
    Memory.readByte (initialMemory memInit n) a = byteOfWord (memInit (a / 8)) (a % 8) := by
  induction n with
  | zero => omega
  | succ n ih =>
    rw [initialMemory, Memory.readByte_writeByte]
    split
    · next he => rw [he]
    · exact ih (by omega)

theorem Memory.wf_initialMemory (memInit : Nat → Word) (n : Nat) : Memory.wf (initialMemory memInit n) = true := by
  induction n with
  | zero => rfl
  | succ n ih => exact Memory.wf_writeByte _ _ ih

theorem mem_initialMemory {memInit : Nat → Word} {n : Nat} {p : Host.Cell} (h : p ∈ initialMemory memInit n) :
    p.1 < n := by
  induction n with
  | zero => simp [initialMemory] at h
  | succ n ih =>
    rcases Memory.mem_writeByte h with h | h
    · omega
    · exact Nat.lt_succ_of_lt (ih h)

/-- Byte `k` of a sized load is the byte of memory it comes from. -/
theorem Memory.readByte_eq_loadLE (m : Memory) (a : Nat) {n k : Nat} (h : k < n) :
    Memory.readByte m (a + k) = (BitVec.ofNat (8 * n) (Memory.loadLE m a n)).extractLsb' (8 * k) 8 := by
  induction n generalizing a k with
  | zero => omega
  | succ n ih =>
    apply BitVec.eq_of_toNat_eq
    rw [BitVec.extractLsb'_toNat, BitVec.toNat_ofNat, Nat.mod_eq_of_lt (Memory.loadLE_lt m a (n + 1)),
      Memory.loadLE, Nat.shiftRight_eq_div_pow]
    have hb := (Memory.readByte m a).isLt
    cases k with
    | zero => simp; omega
    | succ k =>
      have hk := congrArg BitVec.toNat (ih (a + 1) (Nat.lt_of_succ_lt_succ h))
      rw [BitVec.extractLsb'_toNat, BitVec.toNat_ofNat, Nat.mod_eq_of_lt (Memory.loadLE_lt m (a + 1) n),
        Nat.shiftRight_eq_div_pow] at hk
      rw [show a + (k + 1) = a + 1 + k by omega, hk, show 8 * (k + 1) = 8 + 8 * k by omega, Nat.pow_add,
        ← Nat.div_div_eq_div_mul]
      congr 2
      omega

end Sys2Proof.Machine
end

