-- ==== Sys2Proof/Tests/Slice0.lean ====
section
/-! SUPPORT. The model's own tests. Words and expected values come from spec/95_test_vectors.md (and, where a comment
says so, from the bit tables of spec/30_encoding.md), never from the model. Second part: for every
obligation with hypotheses, a state and operands that meet them. -/

namespace Sys2Proof.Tests

open Sys2Proof Sys2Proof.Machine

/-! ### The check WellFormed refuses ill-formed instructions -/

theorem test_wellFormed_refuses_selector_16 : wellFormed (.movReg 0 16) = false := by decide
theorem test_wellFormed_refuses_dst_31 : wellFormed (.lea 31 0) = false := by decide
theorem test_wellFormed_refuses_third_selector : wellFormed (.cset 0 1 2 20) = false := by decide
theorem test_wellFormed_refuses_cc_11 : wellFormed (.cmp 11 0 1) = false := by decide
theorem test_wellFormed_accepts_the_bounds : wellFormed (.cset 10 15 15 15) = true := by decide

/-! ### Decoding: every constructor by a word written out from the spec's encoding -/

theorem test_decode_halt_family :
    decode 0x00000000#32 = .instr .halt ∧ decode 0x02000000#32 = .instr .ret ∧
    decode 0x04000000#32 = .instr .syscall ∧ decode 0x07FFFFFF#32 = .instr .call := by decide

-- MVNOT r1, #-1: 00001 00001 0 and twenty-one ones; MOV f0, r1: 00011 01000 1 00001 and sixteen zeros (R62)
theorem test_decode_format_M :
    decode 0x085FFFFF#32 = .instr (.mvnotImm 1 0x1FFFFF) ∧ decode 0x08A30000#32 = .instr (.mvnotReg 2 3) ∧
    decode 0x10000005#32 = .instr (.mvnegImm 0 5) ∧ decode 0x10210000#32 = .instr (.mvnegReg 0 1) ∧
    decode 0x180FFFFF#32 = .instr (.movImm 0 0xFFFFF) ∧ decode 0x1A210000#32 = .instr (.movReg 8 1) := by decide

-- MVA r0, q2, r1: 00100 00000 10 1 0 00001 and thirteen zeros (R63)
theorem test_decode_format_A :
    decode 0x2033FFFF#32 = .instr (.mvaImm 0 3 0x3FFFF) ∧ decode 0x20282000#32 = .instr (.mvaReg 0 2 1) ∧
    decode 0x20040000#32 = .instr (.mvaImm 0 0 0) := by decide

theorem test_decode_format_B :
    decode 0x29FFFFFF#32 = .instr (.brImm false 0x1FFFFFF) ∧ decode 0x2C000001#32 = .instr (.brImm true 1) ∧
    decode 0x2A200000#32 = .instr (.brReg false 2) ∧ decode 0x2E700000#32 = .instr (.brReg true 7) := by decide

theorem test_decode_format_L : decode 0x307FFFFD#32 = .instr (.lea 1 0x3FFFFD) := by decide

-- ADD r1, r0, <sel20>: 00111 00001 00000 1 10100 and eleven zeros (R66)
theorem test_decode_format_R_arithmetic :
    decode 0x3802FFFF#32 = .instr (.addImm 0 1 0xFFFF) ∧ decode 0x3841A000#32 = .instr (.addReg 1 0 20) ∧
    decode 0x40420001#32 = .instr (.subImm 1 1 1) ∧ decode 0x40031000#32 = .instr (.subReg 0 1 2) ∧
    decode 0x4884FFFA#32 = .instr (.multImm 2 2 0xFFFA) ∧ decode 0x48031000#32 = .instr (.multReg 0 1 2) ∧
    decode 0x57FFFFFF#32 = .instr .div ∧ decode 0x58000000#32 = .instr .mod := by decide

theorem test_decode_format_R_bitwise :
    decode 0x600200FF#32 = .instr (.andImm 0 1 0xFF) ∧ decode 0x60031000#32 = .instr (.andReg 0 1 2) ∧
    decode 0x68028000#32 = .instr (.orImm 0 1 0x8000) ∧ decode 0x68031000#32 = .instr (.orReg 0 1 2) ∧
    decode 0x7002FFFF#32 = .instr (.xorImm 0 1 0xFFFF) ∧ decode 0x70C31000#32 = .instr (.xorReg 3 1 2) := by decide

theorem test_decode_format_R_shift :
    decode 0x78020004#32 = .instr (.lslImm 0 1 4) ∧ decode 0x78031000#32 = .instr (.lslReg 0 1 2) ∧
    decode 0x8040003C#32 = .instr (.lsrImm 1 0 60) ∧ decode 0x80031000#32 = .instr (.lsrReg 0 1 2) ∧
    decode 0x8880003C#32 = .instr (.asrImm 2 0 60) ∧ decode 0x88031000#32 = .instr (.asrReg 0 1 2) := by decide

-- CSET r2, DIFF, r1, r4: 10010 0010 1 00001 00100 00010 and seven zeros (R67)
theorem test_decode_format_C :
    decode 0x90801A00#32 = .instr (.cmp 1 0 1) ∧ decode 0x91424100#32 = .instr (.cset 2 1 4 2) := by decide

-- LDR.16s r3, [r1, #2]: 10011 01 1 00011 00001 and 2 in fourteen bits (R68)
theorem test_decode_format_S :
    decode 0x9B184002#32 = .instr (.ldr .b16 true 3 1 2) ∧ decode 0x9E007FFD#32 = .instr (.ldr .b64 false 0 1 0x3FFD) ∧
    decode 0xA1107FFF#32 = .instr (.str .b8 2 1 0x3FFF) ∧ decode 0xA4004004#32 = .instr (.str .b32 0 1 4) := by decide

theorem test_decode_unknown_opcodes :
    decode 0xA8000000#32 = .unknownOpcode 21 ∧ decode 0xFFFFFFFF#32 = .unknownOpcode 31 := by decide

theorem test_decodeTableWord_reads_its_word : decodeTableWord 32 0x38810800 = some (.addReg 2 0 1) := by decide

/-! ### One step of each instruction -/

/-- The reset state with the registers given. -/
def machine (regs : List (Fin 16 × Word)) : State := regs.foldl (fun s r => s.setReg r.1 r.2) State.reset

/-- The state after one step from `s` with `w` as the word it fetches. -/
def ran (s : State) (w : Nat) : Option State :=
  match step (s.withFetchWord 32 w) with
  | .next t => some t
  | .fault _ => none
  | .refused _ => none

/-- What a test looks at after `w`: register `r`, `ip` and the run state. -/
def see (r : Fin 16) (regs : List (Fin 16 × Word)) (w : Nat) : Option (Word × Word × RunState) :=
  (ran (machine regs) w).map fun t => (t.reg r, t.ip, t.run)

/-- The memory of 95_test_vectors.md section 2.8, with `r1 = 8`. -/
def dataMachine (regs : List (Fin 16 × Word)) : State :=
  ((machine ((1, 8) :: regs)).setStackWord 0 0x0706050403020100).setStackWord 1 0x12345678DEADBEEF

/-- What a load test looks at. -/
def seeLoad (r : Fin 16) (regs : List (Fin 16 × Word)) (w : Nat) : Option (Word × Word × RunState) :=
  (ran (dataMachine regs) w).map fun t => (t.reg r, t.ip, t.run)

/-- What a store test looks at: `mem[0]`, `mem[1]`, `mem[2]`, `mem[7]` and the run state. -/
def seeStore (regs : List (Fin 16 × Word)) (w : Nat) : Option (List Word × RunState) :=
  (ran (dataMachine regs) w).map fun t => ([t.stackWord 0, t.stackWord 1, t.stackWord 2, t.stackWord 7], t.run)

/-- What a branch test looks at: `ip`, `fp`, the run state, from `ip = 4`. -/
def seeBranch (fp : Word) (regs : List (Fin 16 × Word)) (w : Nat) : Option (Word × Word × RunState) :=
  (ran (((machine regs).setIp 4).setFp fp) w).map fun t => (t.ip, t.fp, t.run)

/-- What a compare test looks at: the latch, `ip`, the run state, from a latch of `b`. -/
def seeLatch (b : Bool) (regs : List (Fin 16 × Word)) (w : Nat) : Option (Bool × Word × RunState) :=
  (ran ((machine regs).setLatch b) w).map fun t => (t.lastCmp, t.ip, t.run)


-- section 2.2
theorem test_halt_ends_the_run :
    see 0 [(0, 0x1234)] 0x01FFFFFF = some (0x1234, 1, .halted .halt) := by decide
theorem test_ret_ends_the_run :
    see 0 [(0, 0x1234)] 0x02000000 = some (0x1234, 1, .halted .ret) := by decide
theorem test_syscall_ends_the_run :
    see 0 [(0, 0x1234)] 0x04000000 = some (0x1234, 1, .halted .syscall) := by decide
theorem test_call_ends_the_run :
    see 0 [(0, 0x1234)] 0x07FFFFFF = some (0x1234, 1, .halted .call) := by decide

-- section 2.3
theorem test_mvnotImm :
    see 0 [] 0x080FFFFF = some (0xFFFFFFFFFFF00000, 1, .running) := by decide
theorem test_mvnotReg :
    see 2 [(3, 0x00000000FFFF0000)] 0x08A30000 = some (0xFFFFFFFF0000FFFF, 1, .running) := by decide
theorem test_mvnegImm :
    see 0 [] 0x10100000 = some (0x0000000000100000, 1, .running) := by decide
theorem test_mvnegReg_most_negative :
    see 0 [(1, 0x8000000000000000)] 0x10210000 = some (0x8000000000000000, 1, .running) := by decide
theorem test_movImm_sign :
    see 0 [] 0x18100000 = some (0xFFFFFFFFFFF00000, 1, .running) := by decide
theorem test_movReg_to_f0 :
    see 8 [(1, 0x400921FB54442D18)] 0x1A210000 = some (0x400921FB54442D18, 1, .running) := by decide
theorem test_mvaImm_negative :
    see 0 [] 0x2033FFFF = some (0xFFFF000000000000, 1, .running) := by decide
theorem test_mvaImm_keeps_lower_bits :
    see 0 [(0, 0xBEEF)] 0x2010DEAD = some (0xDEADBEEF, 1, .running) := by decide
theorem test_mvaReg_loses_high_bits :
    see 0 [(0, 0xF), (1, 0x123456789)] 0x20282000 = some (0x234567890000000F, 1, .running) := by decide

-- section 2.4
theorem test_brImm_back :
    seeBranch 7 [] 0x29FFFFFE = some (3, 7, .running) := by decide
theorem test_brImm_link :
    seeBranch 99 [] 0x2C000001 = some (6, 5, .running) := by decide
theorem test_brReg_link :
    seeBranch 99 [(7, 3)] 0x2E700000 = some (3, 5, .running) := by decide
theorem test_brReg_invalid_keeps_fp :
    seeBranch 9 [] 0x2F400000 = some (5, 9, .faulted (.invalidRegister 20)) := by decide
theorem test_lea_back :
    see 1 [] 0x307FFFFD = some (0xFFFFFFFFFFFFFFFE, 1, .running) := by decide
theorem test_lea_least :
    see 0 [] 0x30200000 = some (0xFFFFFFFFFFE00001, 1, .running) := by decide

-- section 2.5
theorem test_addImm_minus_one :
    see 0 [(1, 0)] 0x3802FFFF = some (0xFFFFFFFFFFFFFFFF, 1, .running) := by decide
theorem test_addReg_wraps :
    see 2 [(0, 0xFFFFFFFFFFFFFFFF), (1, 1)] 0x38810800 = some (0, 1, .running) := by decide
theorem test_addReg_source_is_destination :
    see 0 [(0, 0x8000000000000001)] 0x38010000 = some (2, 1, .running) := by decide
theorem test_subImm_wraps :
    see 1 [] 0x40420001 = some (0xFFFFFFFFFFFFFFFF, 1, .running) := by decide
theorem test_subReg_order :
    see 0 [(1, 0x8000000000000000), (2, 1)] 0x40031000 = some (0x7FFFFFFFFFFFFFFF, 1, .running) := by decide
theorem test_multImm :
    see 2 [(2, 1)] 0x4884FFFA = some (0xFFFFFFFFFFFFFFFA, 1, .running) := by decide
theorem test_multReg :
    see 0 [(1, 0x123456789ABCDEF0), (2, 0x0FEDCBA987654321)] 0x48031000 =
      some (0x2236D88FE5618CF0, 1, .running) := by decide
theorem test_div_faults :
    see 0 [(1, 10), (2, 2)] 0x57FFFFFF = some (0, 1, .faulted (.unsupported 10)) := by decide
theorem test_mod_faults :
    see 0 [] 0x5FFFFFFF = some (0, 1, .faulted (.unsupported 11)) := by decide

-- section 2.6
theorem test_andImm_sign :
    see 0 [(1, 0xF0F0F0F012345678)] 0x6002FF00 = some (0xF0F0F0F012345600, 1, .running) := by decide
theorem test_andReg :
    see 0 [(1, 0xF0F0F0F012345678), (2, 0xFFFFFFFF)] 0x60031000 = some (0x12345678, 1, .running) := by decide
theorem test_orImm_sign :
    see 0 [(1, 1)] 0x68028000 = some (0xFFFFFFFFFFFF8001, 1, .running) := by decide
theorem test_orReg :
    see 0 [(1, 0xF0), (2, 0xF)] 0x68031000 = some (0xFF, 1, .running) := by decide
theorem test_xorImm :
    see 0 [(1, 0xF0F0F0F012345678)] 0x7002FFFF = some (0x0F0F0F0FEDCBA987, 1, .running) := by decide
theorem test_xorReg :
    see 3 [(1, 0xF), (2, 0xFFFFFFFFFFFFFFFF)] 0x70C31000 = some (0xFFFFFFFFFFFFFFF0, 1, .running) := by decide
theorem test_lslImm_by_64 :
    see 0 [(1, 0xF0F0F0F012345678)] 0x78020040 = some (0xF0F0F0F012345678, 1, .running) := by decide
theorem test_lslReg_low_six_bits :
    see 0 [(1, 1), (2, 0x0000000100000008)] 0x78031000 = some (0x100, 1, .running) := by decide
theorem test_lsrImm :
    see 1 [(0, 0xFFFFFFFFFFFFFFFF)] 0x8040003C = some (0xF, 1, .running) := by decide
theorem test_lsrReg :
    see 0 [(1, 0xF0F0F0F012345678), (2, 0x40)] 0x80031000 = some (0xF0F0F0F012345678, 1, .running) := by decide
theorem test_asrImm :
    see 0 [(1, 0x8000000000000000)] 0x88020001 = some (0xC000000000000000, 1, .running) := by decide
theorem test_asrReg :
    see 0 [(1, 0xFFFFFFFFFFFFFF00), (2, 4)] 0x88031000 = some (0xFFFFFFFFFFFFFFF0, 1, .running) := by decide

-- section 2.7
theorem test_cmp_signed_extremes :
    seeLatch false [(0, 0x8000000000000000), (1, 0x7FFFFFFFFFFFFFFF)] 0x92801000 =
      some (true, 1, .running) := by decide
theorem test_cmp_reserved_keeps_latch :
    seeLatch true [] 0x95801000 = some (true, 1, .faulted (.unsupported 18)) := by decide
theorem test_cset_unsigned :
    see 2 [(0, 0xFFFFFFFFFFFFFFFF), (2, 0xAA)] 0x93C01100 = some (1, 1, .running) := by decide
theorem test_cset_keeps_latch :
    seeLatch true [(0, 0xFFFFFFFFFFFFFFFF)] 0x91C01100 = some (true, 1, .running) := by decide
-- the table of all eleven conditions over six pairs, a column per pair
theorem test_condition_table :
    (List.range 11).map (fun cc => ([(0, 0), (1, 2), (2, 1), (0xFFFFFFFFFFFFFFFF, 0), (0, 0xFFFFFFFFFFFFFFFF),
      (0x8000000000000000, 0x7FFFFFFFFFFFFFFF)] : List (Word × Word)).map fun p =>
        (evalCond (BitVec.ofNat 4 cc) p.1 p.2).toOption == some true) =
    [[true, true, true, true, true, true], [true, false, false, false, false, false],
     [false, true, true, true, true, true], [false, false, true, false, true, false],
     [true, false, true, false, true, false], [false, true, false, true, false, true],
     [true, true, false, true, false, true], [false, false, true, true, false, true],
     [true, false, true, true, false, true], [false, true, false, false, true, false],
     [true, true, false, false, true, false]] := by decide

-- section 2.8
theorem test_ldr_crosses_words :
    seeLoad 0 [] 0x9E007FFD = some (0x78DEADBEEF070605, 1, .running) := by decide
theorem test_ldr_sign :
    seeLoad 3 [] 0x9B184002 = some (0xFFFFFFFFFFFFDEAD, 1, .running) := by decide
theorem test_ldr_past_the_end :
    seeLoad 6 [(6, 5)] 0x9E304038 = some (5, 1, .faulted (.memoryFault 0x40 8)) := by decide
theorem test_str_byte_below :
    seeStore [(2, 0xFFFFFFFFFFFFFFEF)] 0xA1107FFF =
      some ([0xEF06050403020100, 0x12345678DEADBEEF, 0, 0], .running) := by decide
theorem test_str_crosses_words :
    seeStore [(0, 0xA1B2C3D4)] 0xA4004006 =
      some ([0x0706050403020100, 0xC3D45678DEADBEEF, 0xA1B2, 0], .running) := by decide
theorem test_str_fault_writes_nothing :
    seeStore [(0, 0xFFFFFFFFFFFFFFFF)] 0xA6004031 =
      some ([0x0706050403020100, 0x12345678DEADBEEF, 0, 0], .faulted (.memoryFault 0x39 8)) := by decide

-- section 2.10: priority
theorem test_first_selector_is_reported :
    see 0 [] 0x3C659800 = some (0, 1, .faulted (.invalidRegister 17)) := by decide
theorem test_selector_before_reserved_condition :
    see 0 [] 0x95A80000 = some (0, 1, .faulted (.invalidRegister 20)) := by decide
theorem test_unknown_opcode :
    see 0 [] 0xAFFFFFFF = some (0, 1, .faulted (.unknownOpcode 21)) := by decide

/-! ### Reset, fetch, the stack controller -/

theorem test_reset_is_create :
    create Config.code Config.stackReq Config.startOffset 8 Config.nExt (fun _ => 0) = .machine State.reset := by decide

theorem test_create_rounds :
    capacityFor 5 = 8 ∧ capacityFor 16 = 16 ∧ capacityFor 17 = 24 ∧ capacityFor 0 = 0 ∧
    create [0] 9 0 15 0 (fun _ => 0) = .allocationFailure := by decide

theorem test_memInit_word : (match create [0] 5 0 8 0 (fun j => if j = 1 then 0x12345678DEADBEEF else 0) with
    | .machine s => some (s.byteAt 8, s.byteAt 15, s.stackWord 1)
    | .allocationFailure => none) = some (0xEF, 0x12, 0x12345678DEADBEEF) := by decide

theorem test_empty_code_fetch : runResult 1 State.reset = some (.faulted (.fetchFault 0)) ∧
    (runFor 1 State.reset).ip = 0 := by decide

theorem test_terminal_machine_has_no_step :
    (match step (runFor 1 State.reset) with | .fault f => some f | .next _ => none | .refused _ => none) =
      some .notRunning := by decide

theorem test_snapshot : snapshot ((State.reset.setReg 9 5).setFp 3) =
    ⟨0, 3, (Vector.replicate 16 (0 : Word)).set 9 5, false⟩ := by decide

-- section 2.9, rows 1 to 7 and 10
theorem test_push_three_pop_three :
    (do
      let s ← setN 1 0xBB (pushAll [0xA, 0xB, 0xC] State.reset)
      let (vs, t) ← popAll 3 s
      pure (vs, t.sp, t.stackWord 2)).toOption = some ([0xC, 0xBB, 0xA], 0, 0xC) := by decide

theorem test_pop_underflow : (match pop State.reset with | .ok _ => none | .error e => some e) =
    some .stackUnderflow := by decide

-- rows 8, 9, 16 to 19
theorem test_full_stack :
    push 0x99 (State.reset.setSp 8) = (false, State.reset.setSp 8) ∧
    reserve 1 (State.reset.setSp 8) = (false, State.reset.setSp 8) ∧
    reserve 0 (State.reset.setSp 8) = (true, State.reset.setSp 8) ∧
    reserve 5 (State.reset.setSp 3) = (true, State.reset.setSp 8) ∧
    reserve 6 (State.reset.setSp 3) = (false, State.reset.setSp 3) ∧
    reserve (2 ^ 64 - 1) (State.reset.setSp 1) = (false, State.reset.setSp 1) := by decide

-- writing what an unlisted address reads as removes the entry
theorem test_memory_is_canonical :
    (State.reset.setStackWord 1 0x0100).setStackWord 1 0 = State.reset ∧
    (State.reset.setStackWord 1 0x0100).mem = [(9, 1)] := by decide


/-! ### Witnesses: the hypotheses of the obligations can be met, clause by clause, at the bounds -/

/-- A running machine whose next step fetches `w`. -/
def fetching (w : InstrWord) : State := { State.reset with code := [w] }

theorem fetching_aboutToRun (w : InstrWord) : (fetching w).aboutToRun w := ⟨rfl, rfl⟩

theorem fetching_inv (w : InstrWord) : (fetching w).Inv :=
  ⟨rfl, by simp [fetching, State.reset], Nat.zero_le _, (by decide : State.reset.cap % 8 = 0), by simp [fetching],
    by simp [fetching, State.reset]⟩

theorem witness_IgnoredBitsChangeNothing :
    decode 0x1821FFFF#32 = .instr (.movReg 0 1) ∧
    0x1821FFFF#32 &&& ~~~(Instr.movReg 0 1).ignoredBits = 0x18210000#32 &&& ~~~(Instr.movReg 0 1).ignoredBits ∧
    (fetching 0x1821FFFF#32).aboutToRun 0x1821FFFF#32 ∧
    State.aboutToRun { fetching 0x1821FFFF#32 with code := [0x18210000#32] } 0x18210000#32 ∧
    step (fetching 0x1821FFFF#32) = .next { fetching 0x1821FFFF#32 with ip := 1 } :=
  ⟨by decide, by decide, fetching_aboutToRun _, ⟨rfl, rfl⟩, rfl⟩

theorem witness_DecoderAgreesWithOpcodeTable :
    decode 0x3841A000#32 = .instr (.addReg 1 0 20) ∧
    0x3841A000#32 &&& (Instr.addReg 0 0 0).tableBits.2 = (Instr.addReg 0 0 0).tableBits.1 := by decide

theorem witness_UnknownOpcodeFaults :
    (fetching 0xA8000000#32).aboutToRun 0xA8000000#32 ∧ 21 ≤ ((0xA8000000#32).extractLsb' 27 5).toNat ∧
    (fetching 0xFFFFFFFF#32).aboutToRun 0xFFFFFFFF#32 ∧ 21 ≤ ((0xFFFFFFFF#32).extractLsb' 27 5).toNat :=
  ⟨fetching_aboutToRun _, by decide, fetching_aboutToRun _, by decide⟩

-- the two clauses at the values next to the sign bit, and the widest and narrowest field
theorem witness_ExtenderKeepsTheValueOfTheField :
    2 ^ 13 ≤ (0x2000 : Word).toNat % 2 ^ (13 + 1) ∧ ¬ (true = true ∧ 2 ^ 13 ≤ (0x1FFF : Word).toNat % 2 ^ (13 + 1)) ∧
    2 ^ 63 ≤ (0x8000000000000000 : Word).toNat % 2 ^ (63 + 1) ∧ (63 : Nat) < 64 ∧ (0 : Nat) < 1 ∧ (64 : Nat) ≤ 64 := by
  decide

theorem witness_StepRunsDecodedInstruction :
    (fetching 0x38810800#32).aboutToRun 0x38810800#32 ∧ decode 0x38810800#32 = .instr (.addReg 2 0 1) :=
  ⟨fetching_aboutToRun _, by decide⟩

-- index 0 is the last one inside a code image of one word, index 1 the first outside
theorem witness_FetchOutsideTheCodeFaults :
    (0 : Word).toNat < (fetching 0#32).code.length ∧ ((fetching 0#32).setIp 1).code.length ≤ (1 : Word).toNat ∧
    ((fetching 0#32).setIp 1).run = .running ∧ (1 : Word) = ((fetching 0#32).setIp 1).ip := by decide

theorem witness_StepIsEnabledExactlyWhileRunning :
    State.reset.run = .running ∧ (State.reset.setRun (.halted .halt)).run ≠ .running := by decide

theorem witness_HaltFamilyEndsTheRun :
    (fetching 0x01FFFFFF#32).aboutToRun 0x01FFFFFF#32 ∧ (0x01FFFFFF#32).extractLsb' 27 5 = 0#5 ∧
    (0x01FFFFFF#32).extractLsb' 25 2 = 0#2 ∧ (0x03FFFFFF#32).extractLsb' 25 2 = 1#2 ∧
    (0x05FFFFFF#32).extractLsb' 25 2 = 2#2 ∧ (0x07FFFFFF#32).extractLsb' 25 2 = 3#2 ∧
    (0x07FFFFFF#32).extractLsb' 27 5 = 0#5 := ⟨fetching_aboutToRun _, by decide⟩

-- dst 16; dst 15 with an immediate, with src 16, with src 15; the three opcodes
theorem witness_MoveInstructionsFollowTheirRules :
    (fetching 0x08000000#32).aboutToRun 0x08000000#32 ∧
    (0x08000000#32).extractLsb' 27 5 = 1#5 ∧ (0x10000000#32).extractLsb' 27 5 = 2#5 ∧
    (0x18000000#32).extractLsb' 27 5 = 3#5 ∧ 16 ≤ ((0x0C000000#32).extractLsb' 22 5).toNat ∧
    (((0x0BC00000#32).extractLsb' 22 5).toNat = (15 : Fin 16).val ∧ (0x0BC00000#32).getLsbD 21 = false) ∧
    (((0x0BF00000#32).extractLsb' 22 5).toNat = (15 : Fin 16).val ∧ (0x0BF00000#32).getLsbD 21 = true ∧
      16 ≤ ((0x0BF00000#32).extractLsb' 16 5).toNat) ∧
    (((0x0BEF0000#32).extractLsb' 22 5).toNat = (15 : Fin 16).val ∧ (0x0BEF0000#32).getLsbD 21 = true ∧
      ((0x0BEF0000#32).extractLsb' 16 5).toNat = (15 : Fin 16).val) := ⟨fetching_aboutToRun _, by decide⟩

theorem witness_MvaFollowsItsRule :
    (fetching 0x20000000#32).aboutToRun 0x20000000#32 ∧ (0x20000000#32).extractLsb' 27 5 = 4#5 ∧
    16 ≤ ((0x24000000#32).extractLsb' 22 5).toNat ∧
    (((0x23C00000#32).extractLsb' 22 5).toNat = (15 : Fin 16).val ∧ (0x23C00000#32).getLsbD 19 = false) ∧
    (((0x23CA0000#32).extractLsb' 22 5).toNat = (15 : Fin 16).val ∧ (0x23CA0000#32).getLsbD 19 = true ∧
      16 ≤ ((0x23CA0000#32).extractLsb' 13 5).toNat) ∧
    (((0x23C9E000#32).extractLsb' 22 5).toNat = (15 : Fin 16).val ∧ (0x23C9E000#32).getLsbD 19 = true ∧
      ((0x23C9E000#32).extractLsb' 13 5).toNat = (15 : Fin 16).val) := ⟨fetching_aboutToRun _, by decide⟩

theorem witness_BrFollowsItsRule :
    (fetching 0x2C000001#32).aboutToRun 0x2C000001#32 ∧ (0x2C000001#32).extractLsb' 27 5 = 5#5 ∧
    (0x2C000001#32).getLsbD 25 = false ∧
    ((0x2B000000#32).getLsbD 25 = true ∧ 16 ≤ ((0x2B000000#32).extractLsb' 20 5).toNat) ∧
    ((0x2AF00000#32).getLsbD 25 = true ∧ ((0x2AF00000#32).extractLsb' 20 5).toNat = (15 : Fin 16).val) :=
  ⟨fetching_aboutToRun _, by decide⟩

theorem witness_LeaFollowsItsRule :
    (fetching 0x33C00000#32).aboutToRun 0x33C00000#32 ∧ (0x33C00000#32).extractLsb' 27 5 = 6#5 ∧
    ((0x33C00000#32).extractLsb' 22 5).toNat = (15 : Fin 16).val ∧
    16 ≤ ((0x34000000#32).extractLsb' 22 5).toNat := ⟨fetching_aboutToRun _, by decide⟩

-- dst 16; src 16; an immediate; src2 16; all three 15; and the low bits are the same for every opcode of format R
theorem witness_aluRule_clauses :
    16 ≤ ((0x3C000000#32).extractLsb' 22 5).toNat ∧
    (((0x3BE00000#32).extractLsb' 22 5).toNat = (15 : Fin 16).val ∧ 16 ≤ ((0x3BE00000#32).extractLsb' 17 5).toNat) ∧
    (((0x3BDE0000#32).extractLsb' 22 5).toNat = (15 : Fin 16).val ∧
      ((0x3BDE0000#32).extractLsb' 17 5).toNat = (15 : Fin 16).val ∧ (0x3BDE0000#32).getLsbD 16 = false) ∧
    (((0x3BDF8000#32).extractLsb' 17 5).toNat = (15 : Fin 16).val ∧ (0x3BDF8000#32).getLsbD 16 = true ∧
      16 ≤ ((0x3BDF8000#32).extractLsb' 11 5).toNat) ∧
    (((0x3BDF7800#32).extractLsb' 17 5).toNat = (15 : Fin 16).val ∧ (0x3BDF7800#32).getLsbD 16 = true ∧
      ((0x3BDF7800#32).extractLsb' 11 5).toNat = (15 : Fin 16).val) := by decide

theorem witness_ArithmeticFollowsItsRules :
    (fetching 0x38810800#32).aboutToRun 0x38810800#32 ∧ (0x38810800#32).extractLsb' 27 5 = 7#5 ∧
    (0x40810800#32).extractLsb' 27 5 = 8#5 ∧ (0x48810800#32).extractLsb' 27 5 = 9#5 := ⟨fetching_aboutToRun _, by decide⟩

theorem witness_DivAndModAreUnsupported :
    (fetching 0x57FFFFFF#32).aboutToRun 0x57FFFFFF#32 ∧ (0x57FFFFFF#32).extractLsb' 27 5 = 10#5 ∧
    (0x58000000#32).extractLsb' 27 5 = 11#5 := ⟨fetching_aboutToRun _, by decide⟩

theorem witness_BitwiseFollowsItsRules :
    (fetching 0x60810800#32).aboutToRun 0x60810800#32 ∧ (0x60810800#32).extractLsb' 27 5 = 12#5 ∧
    (0x68810800#32).extractLsb' 27 5 = 13#5 ∧ (0x70810800#32).extractLsb' 27 5 = 14#5 := ⟨fetching_aboutToRun _, by decide⟩

theorem witness_ShiftsFollowTheirRules :
    (fetching 0x78810800#32).aboutToRun 0x78810800#32 ∧ (0x78810800#32).extractLsb' 27 5 = 15#5 ∧
    (0x80810800#32).extractLsb' 27 5 = 16#5 ∧ (0x88810800#32).extractLsb' 27 5 = 17#5 := ⟨fetching_aboutToRun _, by decide⟩

-- lhs 16; rhs 16; cc 11; cc 10, with both selectors 15
theorem witness_CmpFollowsItsRule :
    (fetching 0x90801000#32).aboutToRun 0x90801000#32 ∧ (0x90801000#32).extractLsb' 27 5 = 18#5 ∧
    (0x90801000#32).getLsbD 22 = false ∧ 16 ≤ ((0x90A00000#32).extractLsb' 17 5).toNat ∧
    (((0x909F0000#32).extractLsb' 17 5).toNat = (15 : Fin 16).val ∧ 16 ≤ ((0x909F0000#32).extractLsb' 12 5).toNat) ∧
    (((0x959EF000#32).extractLsb' 17 5).toNat = (15 : Fin 16).val ∧
      ((0x959EF000#32).extractLsb' 12 5).toNat = (15 : Fin 16).val ∧ 11 ≤ ((0x959EF000#32).extractLsb' 23 4).toNat) ∧
    (((0x951EF000#32).extractLsb' 17 5).toNat = (15 : Fin 16).val ∧
      ((0x951EF000#32).extractLsb' 12 5).toNat = (15 : Fin 16).val ∧ ((0x951EF000#32).extractLsb' 23 4).toNat ≤ 10) :=
  ⟨fetching_aboutToRun _, by decide⟩

-- lhs 16; rhs 16; dst 16; cc 11; cc 10 with a condition that holds (r0 <= r0) and, with cc 9, one that does not
theorem witness_CsetFollowsItsRule :
    (fetching 0x91424100#32).aboutToRun 0x91424100#32 ∧ (0x91424100#32).extractLsb' 27 5 = 18#5 ∧
    (0x91424100#32).getLsbD 22 = true ∧ 16 ≤ ((0x90E00000#32).extractLsb' 17 5).toNat ∧
    (((0x90DF0000#32).extractLsb' 17 5).toNat = (15 : Fin 16).val ∧ 16 ≤ ((0x90DF0000#32).extractLsb' 12 5).toNat) ∧
    (((0x90DEF800#32).extractLsb' 12 5).toNat = (15 : Fin 16).val ∧ 16 ≤ ((0x90DEF800#32).extractLsb' 7 5).toNat) ∧
    (((0x95DEF780#32).extractLsb' 7 5).toNat = (15 : Fin 16).val ∧ 11 ≤ ((0x95DEF780#32).extractLsb' 23 4).toNat) ∧
    (((0x955EF780#32).extractLsb' 7 5).toNat = (15 : Fin 16).val ∧ ((0x955EF780#32).extractLsb' 23 4).toNat ≤ 10) ∧
    condTable 10 (State.reset.reg 15) (State.reset.reg 15) ∧ ¬ condTable 9 (State.reset.reg 15) (State.reset.reg 15) :=
  ⟨fetching_aboutToRun _, by decide, by decide, by decide, by decide, by decide, by decide, by decide,
    by show (State.reset.reg 15).toNat ≤ (State.reset.reg 15).toNat; decide,
    by show ¬ (State.reset.reg 15).toNat < (State.reset.reg 15).toNat; decide⟩

-- rt 16; base 16; the last address that holds 8 bytes and the next one
theorem witness_LdrFollowsItsRule :
    (fetching 0x9E004030#32).aboutToRun 0x9E004030#32 ∧ (0x9E004030#32).extractLsb' 27 5 = 19#5 ∧
    16 ≤ ((0x9E804030#32).extractLsb' 19 5).toNat ∧
    (((0x9E7C0000#32).extractLsb' 19 5).toNat = (15 : Fin 16).val ∧ 16 ≤ ((0x9E7C0000#32).extractLsb' 14 5).toNat) ∧
    (((0x9E7BC038#32).extractLsb' 19 5).toNat = (15 : Fin 16).val ∧
      ((0x9E7BC038#32).extractLsb' 14 5).toNat = (15 : Fin 16).val ∧
      (addressOf (State.reset.reg 15) ((0x9E7BC038#32).extractLsb' 0 14)).toNat +
        2 ^ ((0x9E7BC038#32).extractLsb' 25 2).toNat ≤ 8 * State.reset.cap) ∧
    8 * State.reset.cap < (addressOf (State.reset.reg 15) ((0x9E7BC039#32).extractLsb' 0 14)).toNat +
      2 ^ ((0x9E7BC039#32).extractLsb' 25 2).toNat := ⟨fetching_aboutToRun _, by decide⟩

theorem witness_StrFollowsItsRule :
    (fetching 0xA6004030#32).aboutToRun 0xA6004030#32 ∧ (0xA6004030#32).extractLsb' 27 5 = 20#5 ∧
    16 ≤ ((0xA6804030#32).extractLsb' 19 5).toNat ∧
    (((0xA67C0000#32).extractLsb' 19 5).toNat = (15 : Fin 16).val ∧ 16 ≤ ((0xA67C0000#32).extractLsb' 14 5).toNat) ∧
    (((0xA67BC038#32).extractLsb' 19 5).toNat = (15 : Fin 16).val ∧
      ((0xA67BC038#32).extractLsb' 14 5).toNat = (15 : Fin 16).val ∧
      (addressOf (State.reset.reg 15) ((0xA67BC038#32).extractLsb' 0 14)).toNat +
        2 ^ ((0xA67BC038#32).extractLsb' 25 2).toNat ≤ 8 * State.reset.cap) ∧
    8 * State.reset.cap < (addressOf (State.reset.reg 15) ((0xA67BC039#32).extractLsb' 0 14)).toNat +
      2 ^ ((0xA67BC039#32).extractLsb' 25 2).toNat := ⟨fetching_aboutToRun _, by decide⟩

theorem witness_ConditionsAreIntegerComparisons :
    (0#4).toNat ≤ 10 ∧ (10#4).toNat ≤ 10 ∧ 11 ≤ (11#4).toNat ∧ 11 ≤ (15#4).toNat := by decide

theorem witness_register_form_completions :
    (15#5 : Sel).toNat = (15 : Fin 16).val ∧ (0#5 : Sel).toNat = (0 : Fin 16).val := by decide

theorem witness_CompareFormsComplete :
    (10#4).toNat ≤ 10 ∧ (15#5 : Sel).toNat = (15 : Fin 16).val ∧ condTable 10 (State.reset.reg 0) (State.reset.reg 15) ∧
    ¬ condTable 9 (State.reset.reg 0) (State.reset.reg 15) :=
  ⟨by decide, by decide, by show (State.reset.reg 0).toNat ≤ (State.reset.reg 15).toNat; decide,
    by show ¬ (State.reset.reg 0).toNat < (State.reset.reg 15).toNat; decide⟩

theorem witness_LoadAndStoreFormsComplete :
    (15#5 : Sel).toNat = (15 : Fin 16).val ∧
    (effectiveAddress 15 56 State.reset).toNat + sizeBytes .b64 ≤ 8 * State.reset.cap ∧
    (effectiveAddress 15 63 State.reset).toNat + sizeBytes .b8 ≤ 8 * State.reset.cap := by decide

theorem witness_StepKeepsInvariant :
    (fetching 0x18000007#32).Inv ∧ step (fetching 0x18000007#32) = .next ((fetching 0x18000007#32).fetched.setReg 0 7) :=
  ⟨fetching_inv _, rfl⟩

-- CAP = 8 for a request of 5: MAX_STACK_WORDS of 7 is too small, 8 is enough
theorem witness_CreateBuildsTheResetMachine :
    7 < capacityFor 5 ∧ capacityFor 5 ≤ 8 ∧ (7 : Nat) < capacityFor 5 ∧ ([0#32] : List InstrWord).length < 2 ^ 64 := by
  decide

theorem witness_FaultKeepsEverythingElse :
    step State.reset = .next (State.reset.setRun (.faulted (.fetchFault 0))) ∧
    step (fetching 0x3841A000#32) = .next ((fetching 0x3841A000#32).fetched.setRun (.faulted (.invalidRegister 20))) := ⟨rfl, rfl⟩

-- each point of the order, the word also meeting the conditions of later points where it can, and no fault at all
theorem witness_FirstApplicableFaultIsRaised :
    (step State.reset = .next (State.reset.setRun (.faulted (.fetchFault 0))) ∧
      priorityFault State.reset = some (.fetchFault 0)) ∧
    (step (fetching 0xAFFFFFFF#32) = .next ((fetching 0xAFFFFFFF#32).fetched.setRun (.faulted (.unknownOpcode 21))) ∧
      priorityFault (fetching 0xAFFFFFFF#32) = some (.unknownOpcode 21)) ∧
    (step (fetching 0x57FFFFFF#32) = .next ((fetching 0x57FFFFFF#32).fetched.setRun (.faulted (.unsupported 10))) ∧
      priorityFault (fetching 0x57FFFFFF#32) = some (.unsupported 10)) ∧
    (step (fetching 0x95A80000#32) = .next ((fetching 0x95A80000#32).fetched.setRun (.faulted (.invalidRegister 20))) ∧
      priorityFault (fetching 0x95A80000#32) = some (.invalidRegister 20)) ∧
    (step (fetching 0x95801000#32) = .next ((fetching 0x95801000#32).fetched.setRun (.faulted (.unsupported 18))) ∧
      priorityFault (fetching 0x95801000#32) = some (.unsupported 18)) ∧
    (step (fetching 0x9E000039#32) = .next ((fetching 0x9E000039#32).fetched.setRun (.faulted (.memoryFault 57 8))) ∧
      priorityFault (fetching 0x9E000039#32) = some (.memoryFault 57 8)) ∧
    step (fetching 0x18000007#32) = .next ((fetching 0x18000007#32).fetched.setReg 0 7) ∧
      priorityFault (fetching 0x18000007#32) = none :=
  ⟨⟨rfl, by decide⟩, ⟨rfl, by decide⟩, ⟨rfl, by decide⟩, ⟨rfl, by decide⟩, ⟨rfl, by decide⟩, ⟨rfl, by decide⟩, rfl,
    by decide⟩

theorem witness_IpAfterAStep :
    (step State.reset = .next (State.reset.setRun (.faulted (.fetchFault 0))) ∧
      State.reset.code.length ≤ State.reset.ip.toNat) ∧
    (step (fetching 0x18000007#32) = .next ((fetching 0x18000007#32).fetched.setReg 0 7) ∧
      (fetching 0x18000007#32).code[(fetching 0x18000007#32).ip.toNat]? = some 0x18000007#32 ∧
      (0x18000007#32).extractLsb' 27 5 ≠ 5#5) ∧
    (step (fetching 0x29FFFFFE#32) = .next ((fetching 0x29FFFFFE#32).setIp 0xFFFFFFFFFFFFFFFF) ∧
      (0x29FFFFFE#32).extractLsb' 27 5 = 5#5 ∧ (0x29FFFFFE#32).getLsbD 25 = false) ∧
    (step (fetching 0x2AF00000#32) = .next ((fetching 0x2AF00000#32).setIp 0) ∧
      (0x2AF00000#32).extractLsb' 27 5 = 5#5 ∧ (0x2AF00000#32).getLsbD 25 = true ∧
      ((0x2AF00000#32).extractLsb' 20 5).toNat = (15 : Fin 16).val) :=
  ⟨⟨rfl, by decide⟩, ⟨rfl, rfl, by decide⟩, ⟨rfl, by decide⟩, ⟨rfl, by decide⟩⟩

theorem witness_ControlStateHasItsWriters :
    step (fetching 0x2C000001#32) = .next (((fetching 0x2C000001#32).setFp 1).setIp 2) ∧
    (((fetching 0x2C000001#32).setFp 1).setIp 2).fp ≠ (fetching 0x2C000001#32).fp ∧
    step (fetching 0x90801000#32) = .next ((fetching 0x90801000#32).fetched.setLatch true) ∧
    ((fetching 0x90801000#32).fetched.setLatch true).lastCmp ≠ (fetching 0x90801000#32).lastCmp :=
  ⟨rfl, by decide, rfl, by decide⟩

-- STR.8 r0, [r0, #63] with r0 = 1 would be past the end; with offset 62 it writes the last byte
theorem witness_OnlyStrWritesMemory :
    step ((fetching 0xA000003E#32).setReg 0 1) =
      .next (((fetching 0xA000003E#32).setReg 0 1).fetched.setMem [(63, 1)]) ∧
    (((fetching 0xA000003E#32).setReg 0 1).fetched.setMem [(63, 1)]).byteAt 63 ≠ ((fetching 0xA000003E#32).setReg 0 1).byteAt 63 :=
  ⟨rfl, by decide⟩

theorem witness_AtMostOneRegisterIsWritten :
    step (fetching 0x04000000#32) = .next ((fetching 0x04000000#32).fetched.setRun (.halted .syscall)) ∧
    ((fetching 0x04000000#32).fetched.setRun (.halted .syscall)).run ≠ .running := ⟨rfl, by decide⟩

theorem witness_UnreadStateNeverMatters :
    agree (fetching 0x18000007#32)
      { fetching 0x18000007#32 with fp := 9, lastCmp := true, sp := 3, xr := [], iret := 1, sysc := 2 } :=
  ⟨rfl, rfl, rfl, rfl, rfl, rfl⟩

theorem witness_HaltsExactlyOnOpcodeZero :
    step (fetching 0x06000000#32) = .next ((fetching 0x06000000#32).fetched.setRun (.halted .call)) ∧
    (fetching 0x06000000#32).aboutToRun 0x06000000#32 ∧ (0x06000000#32).extractLsb' 27 5 = 0#5 :=
  ⟨rfl, fetching_aboutToRun _, by decide⟩

theorem witness_OnlyFaultingEncodingsFault :
    (State.reset.run = .running ∧ exec (.movReg 0 16) State.reset =
      .next (State.reset.setRun (.faulted (.invalidRegister 16))) ∧ wellFormed (.movReg 0 16) = false) ∧
    (exec (.ldr .b64 true 0 0 57) State.reset = .next (State.reset.setRun (.faulted (.memoryFault 57 8))) ∧
      wellFormed (.ldr .b64 true 0 0 57) = true) ∧
    (exec (.movImm 0 7) State.reset = .next (State.reset.setReg 0 7) ∧ wellFormed (.movImm 0 7) = true) :=
  ⟨⟨rfl, rfl, by decide⟩, ⟨rfl, by decide⟩, ⟨rfl, by decide⟩⟩

theorem witness_TerminalStatesAreFinal :
    runResult 1 (fetching 0x04000000#32) = some (.halted .syscall) ∧ (1 : Nat) ≤ 2 := by decide

-- the last 8-byte access, the first past it, and an address that would wrap
theorem witness_SizedAccessesFollowTheirRules :
    (56 : Word).toNat + 8 ≤ 8 * State.reset.cap ∧ 8 * State.reset.cap < (57 : Word).toNat + 8 ∧
    8 * State.reset.cap < (0xFFFFFFFFFFFFFFFF : Word).toNat + 1 := by decide

theorem witness_StackWordsAndBytesAreOneArray : (0 : Nat) < 8 ∧ (7 : Nat) < 8 ∧ (1 : Nat) ≠ 0 := by decide

theorem witness_PushFollowsItsRule :
    (State.reset.setSp 7).sp < State.reset.cap ∧ State.reset.cap ≤ (State.reset.setSp 8).sp := by decide

theorem witness_PopFollowsItsRule :
    State.reset.sp = 0 ∧ 0 < (State.reset.setSp 1).sp ∧
    State.reset.sp + (List.replicate 8 (1 : Word)).length ≤ State.reset.cap := by decide

theorem witness_SetNFollowsItsRule :
    (State.reset.setSp 3).sp ≤ 3 ∧ 1 ≤ 2 ∧ 2 < (State.reset.setSp 3).sp := by decide

theorem witness_ReserveFollowsItsRule :
    (State.reset.setSp 3).sp + 5 ≤ State.reset.cap ∧ State.reset.cap < (State.reset.setSp 3).sp + 6 ∧
    (State.reset.setSp 8).sp ≤ State.reset.cap := by decide

theorem witness_StackControllerKeepsInvariant :
    (fetching 0#32).Inv ∧ pop ((fetching 0#32).setSp 1) = .ok (0, fetching 0#32) ∧
    (match setN 1 5 ((fetching 0#32).setSp 2) with | .ok t => some t | .error _ => none) =
      some (((fetching 0#32).setSp 2).setStackWord 1 5) := ⟨fetching_inv _, rfl, by decide⟩

end Sys2Proof.Tests
end

section
/-! PROOF of O34 (10_state.md R20): which instructions leave `ip` as the fetch advance set it, which words decode to a
branch, and from these where every step leaves `ip`. -/

namespace Sys2Proof

/-! ### Which words decode to a branch (30_encoding.md R64, R70) -/

/-- The two forms of BR, the only instructions that write `ip` (R64). -/
def Instr.isBranch : Instr → Bool
  | .brImm _ _ | .brReg _ _ => true
  | _ => false

theorem isBranch_decodeH (w : InstrWord) : (decodeH w).isBranch = false := by
  unfold decodeH; split <;> rfl

theorem isBranch_decodeM {immForm : Sel → BitVec 21 → Instr} {regForm : Sel → Sel → Instr} (w : InstrWord)
    (himm : ∀ dst imm, (immForm dst imm).isBranch = false) (hreg : ∀ dst src, (regForm dst src).isBranch = false) :
    (decodeM immForm regForm w).isBranch = false := by
  unfold decodeM; split
  · exact hreg _ _
  · exact himm _ _

theorem isBranch_decodeA (w : InstrWord) : (decodeA w).isBranch = false := by
  unfold decodeA; split <;> rfl

theorem isBranch_decodeR {immForm : Sel → Sel → BitVec 16 → Instr} {regForm : Sel → Sel → Sel → Instr}
    (w : InstrWord) (himm : ∀ dst src imm, (immForm dst src imm).isBranch = false)
    (hreg : ∀ dst src src2, (regForm dst src src2).isBranch = false) :
    (decodeR immForm regForm w).isBranch = false := by
  unfold decodeR; split
  · exact hreg _ _ _
  · exact himm _ _ _

theorem isBranch_decodeC (w : InstrWord) : (decodeC w).isBranch = false := by
  unfold decodeC; split <;> rfl

/-- No opcode but 5 decodes to a branch. -/
theorem isBranch_of_opcode_ne_five {w : InstrWord} {i : Instr} (hd : decode w = .instr i) (hop : opcode w ≠ 5#5) :
    i.isBranch = false := by
  unfold decode at hd
  split at hd <;> cases hd
  case h_1 => exact isBranch_decodeH w
  case h_2 | h_3 | h_4 => exact isBranch_decodeM w (fun _ _ => rfl) (fun _ _ => rfl)
  case h_5 => exact isBranch_decodeA w
  case h_6 h5 => exact absurd (BitVec.eq_of_toNat_eq h5) hop
  case h_19 => exact isBranch_decodeC w
  case h_7 | h_11 | h_12 | h_20 | h_21 => rfl  -- LEA, DIV, MOD, LDR, STR
  all_goals exact isBranch_decodeR w (fun _ _ _ => rfl) (fun _ _ _ => rfl)

/-- Opcode 5 decodes to BR. -/
theorem decode_of_opcode_five {w : InstrWord} (h : opcode w = 5#5) : decode w = .instr (decodeB w) := by
  simp [decode, h]

theorem decodeB_imm {w : InstrWord} (h : flag w 25 = false) : decodeB w = .brImm (flag w 26) (field w 0 25) := by
  simp [decodeB, h]

theorem decodeB_reg {w : InstrWord} (h : flag w 25 = true) : decodeB w = .brReg (flag w 26) (field w 20 5) := by
  simp [decodeB, h]

end Sys2Proof

namespace Sys2Proof.Machine

/-! ### What executing an instruction does to `ip` -/

/-- Only a branch moves `ip` away from where the fetch advance left it (R20). -/
theorem exec_ip_of_not_isBranch {i : Instr} {s t : State} (h : exec i s = .next t) (hi : i.isBranch = false) :
    t.ip = s.ip := by
  cases exec_cases h with
  | branch link target hbr => rcases hbr with ⟨imm, rfl⟩ | ⟨reg, rfl⟩ <;> cases hi
  | fault | halt | register | latch | store => rfl

/-- An instruction that faults leaves `ip` as the fetch advance left it (R20; a faulting BR writes nothing). -/
theorem exec_ip_of_faulted {i : Instr} {s t : State} {e : ErrorKind} (h : exec i s = .next t)
    (hs : s.run = .running) (ht : t.run = .faulted e) : t.ip = s.ip := by
  cases exec_cases h with
  | branch => simp [hs] at ht
  | fault | halt | register | latch | store => rfl

/-- BR, immediate form: the signed offset from the next instruction, modulo 2^64 (42_branch_lea.md R90). -/
theorem exec_brImm_ip {link : Bool} {imm : BitVec 25} {s t : State} (h : exec (.brImm link imm) s = .next t) :
    t.ip = BitVec.ofInt 64 ((s.ip.toNat : Int) + imm.toInt) := by
  cases h
  rw [branchTo_ip, add_sext _ _ (by decide) (by decide)]

/-- BR, register form, on a valid selector: the content of the register (R90). -/
theorem exec_brReg_ip {link : Bool} {reg : Sel} {r : Fin 16} {s t : State} (hr : reg.toNat = r.val)
    (h : exec (.brReg link reg) s = .next t) : t.ip = s.reg r := by
  simp only [exec, execBrReg, resolve_valid hr, ok_bind, pure_eq_ok, complete_ok] at h
  cases h
  exact branchTo_ip _ _ _

/-! ### What a step does to `ip` -/

@[simp] theorem State.reg_fetched (s : State) (r : Fin 16) : s.fetched.reg r = s.reg r := rfl

/-- A step whose fetch is out of range leaves `ip` (R20). -/
theorem step_ip_of_fetch_fails {s t : State} (h : step s = .next t) (hc : s.code[s.ip.toNat]? = none) :
    t.ip = s.ip := by
  rcases step_next_cases h with ⟨-, -, rfl⟩ | ⟨w, _, ⟨-, hw⟩, -⟩ | ⟨w, _, ⟨-, hw⟩, -⟩
  · rfl
  all_goals rw [hc] at hw; cases hw

/-- A step that fetched a word ends with a decoding fault in the advanced state or executes the instruction there. -/
theorem step_next_of_fetched {s t : State} {w : InstrWord} (h : step s = .next t)
    (hw : s.code[s.ip.toNat]? = some w) :
    (∃ op, decode w = .unknownOpcode op ∧ t = s.fetched.setRun (.faulted (.unknownOpcode op))) ∨
    (∃ i, s.run = .running ∧ decode w = .instr i ∧ exec i s.fetched = .next t) := by
  rcases step_next_cases h with ⟨-, hc, -⟩ | ⟨w', op, ⟨-, hw'⟩, hd, ht⟩ | ⟨w', i, ⟨hr, hw'⟩, hd, he⟩
  · rw [hc] at hw; cases hw
  · cases hw.symm.trans hw'
    exact .inl ⟨op, hd, ht⟩
  · cases hw.symm.trans hw'
    exact .inr ⟨i, hr, hd, he⟩

/-- A step of any word but a BR, and any step that faults after its fetch, leaves `ip` one more (R20). -/
theorem step_ip_of_not_branch_or_faulted {s t : State} {w : InstrWord} (h : step s = .next t)
    (hw : s.code[s.ip.toNat]? = some w) (hn : opcode w ≠ 5#5 ∨ ∃ e, t.run = .faulted e) : t.ip = s.ip + 1 := by
  rcases step_next_of_fetched h hw with ⟨op, -, rfl⟩ | ⟨i, hr, hd, he⟩
  · rfl
  · rcases hn with hop | ⟨e, ht⟩
    · exact exec_ip_of_not_isBranch he (isBranch_of_opcode_ne_five hd hop)
    · exact exec_ip_of_faulted he hr ht

/-- A step of a word with opcode 5 executes the BR it encodes, after the fetch advance. -/
theorem step_executes_branch {s t : State} {w : InstrWord} (h : step s = .next t)
    (hw : s.code[s.ip.toNat]? = some w) (hop : opcode w = 5#5) : exec (decodeB w) s.fetched = .next t := by
  have hdec := decode_of_opcode_five hop
  rcases step_next_of_fetched h hw with ⟨op, hd, -⟩ | ⟨i, -, hd, he⟩
  · cases hdec.symm.trans hd
  · cases hdec.symm.trans hd
    exact he

/-- Settles O34: the fetch fails, or the step leaves the advanced `ip`, or a branch writes its target. -/
theorem ipAfterAStep : Obligations.IpAfterAStep := by
  intro s t h
  refine ⟨fun hlen => step_ip_of_fetch_fails h (List.getElem?_eq_none hlen), fun w hw => ⟨?_, ?_, ?_⟩⟩
  · exact step_ip_of_not_branch_or_faulted h hw
  · intro hop hm
    have he := step_executes_branch h hw hop
    rw [decodeB_imm hm] at he
    exact exec_brImm_ip he
  · intro hop hm r hr
    have he := step_executes_branch h hw hop
    rw [decodeB_reg hm] at he
    exact (exec_brReg_ip hr he).trans (State.reg_fetched s r)

end Sys2Proof.Machine
end

section
/-! PROOF of the family '20_memory.md': instruction fetch (R43, O8), the sized accesses (R36 to R38, O42) and the stack
controller (R45 to R48, O44 to O47). -/

namespace Sys2Proof.Machine

/-! ### Instruction fetch -/

/-- A running step whose `CodeRead` fails raises `FetchFault` of `ip` in the state it began in (R43). -/
theorem step_of_codeRead_none {s : State} (hr : s.run = .running) (hc : codeRead s.ip s = none) :
    step s = raise (.fetchFault s.ip) s := by
  have hc' : s.code[s.ip.toNat]? = none := hc
  rcases step_cases s with ⟨hn, -⟩ | ⟨-, -, h⟩ | ⟨w, _, -, hw, -⟩ | ⟨w, _, -, hw, -⟩
  · exact absurd hr hn
  · exact h
  all_goals rw [hc'] at hw; cases hw

/-- Settles O8: `CodeRead` is the bounded look-up in the code image, and a step whose `CodeRead` fails only faults. -/
theorem fetchOutsideTheCodeFaults : Obligations.FetchOutsideTheCodeFaults := by
  intro s i
  refine ⟨fun h => List.getElem?_eq_getElem h, fun hlen => ?_⟩
  have hnone : codeRead i s = none := List.getElem?_eq_none hlen
  refine ⟨hnone, ?_⟩
  rintro hr rfl
  exact step_of_codeRead_none hr hnone

/-! ### Sized accesses -/

/-- The word a load of at most eight bytes answers has the value R36 gives the bytes: nothing is cut off. -/
theorem toNat_loadLE_eq_bytesValue (s : State) (a : Nat) {n : Nat} (hn : n ≤ 8) :
    (BitVec.ofNat 64 (Memory.loadLE s.mem a n)).toNat = bytesValue s a n := by
  have hlt : Memory.loadLE s.mem a n < 2 ^ 64 :=
    (Memory.loadLE_lt s.mem a n).trans_le (Nat.pow_le_pow_right (by decide) (by omega))
  rw [BitVec.toNat_ofNat, Nat.mod_eq_of_lt hlt]
  exact Memory.loadLE_eq_sum s.mem a n

/-- Settles O42: outside the bound both primitives fail; inside, the load is the sum of its bytes and the store
writes its bytes alone. -/
theorem sizedAccessesFollowTheirRules : Obligations.SizedAccessesFollowTheirRules := by
  intro s addr n v hn
  refine ⟨fun hout => ⟨memRead_fault hout, memWrite_fault hout⟩, fun hin => ⟨?_, ?_⟩⟩
  · exact ⟨_, memRead_ok hin, toNat_loadLE_eq_bytesValue s addr.toNat (by omega)⟩
  · exact ⟨_, memWrite_ok hin, rfl, fun k hk => Memory.readByte_storeLE hk,
      fun a ha => Memory.readByte_storeLE_outside ha⟩

/-! ### The operations of the stack controller, case by case -/

theorem push_sp {v : Word} {s : State} (h : s.sp < s.cap) : (push v s).2.sp = s.sp + 1 := by
  rw [push_ok h]; rfl

theorem push_cap {v : Word} {s : State} (h : s.sp < s.cap) : (push v s).2.cap = s.cap := by
  rw [push_ok h]; rfl

/-- The pushed value stands at the old `sp` (R45). -/
theorem stackWord_push_self {v : Word} {s : State} (h : s.sp < s.cap) : (push v s).2.stackWord s.sp = v := by
  rw [push_ok h]
  exact stackWord_setStackWord_self s s.sp v

/-- A push leaves every word but the one at the old `sp` (R45). -/
theorem stackWord_push_of_ne {v : Word} {s : State} {j : Nat} (h : s.sp < s.cap) (hj : j ≠ s.sp) :
    (push v s).2.stackWord j = s.stackWord j := by
  rw [push_ok h]
  exact stackWord_setStackWord_of_ne s v hj

theorem pop_empty {s : State} (h : s.sp = 0) : pop s = .error .stackUnderflow := by
  rw [pop, if_pos h]

theorem pop_ok {s : State} (h : 0 < s.sp) : pop s = .ok (s.stackWord (s.sp - 1), s.setSp (s.sp - 1)) := by
  rw [pop, if_neg (by omega)]

theorem setN_invalid {index : Nat} {v : Word} {s : State} (h : index = 0 ∨ s.sp ≤ index) :
    setN index v s = .error (.invalidIndex index) := by
  rw [setN, if_pos h]

theorem setN_ok {index : Nat} {v : Word} {s : State} (h0 : 1 ≤ index) (hsp : index < s.sp) :
    setN index v s = .ok (s.setStackWord index v) := by
  rw [setN, if_neg (by omega)]

theorem reserve_ok {n : Nat} {s : State} (h : s.sp + n ≤ s.cap) : reserve n s = (true, s.setSp (s.sp + n)) := by
  rw [reserve, if_pos h]

theorem reserve_full {n : Nat} {s : State} (h : s.cap < s.sp + n) : reserve n s = (false, s) := by
  rw [reserve, if_neg (by omega)]

/-- Settles O44: the two cases of `push`. -/
theorem pushFollowsItsRule : Obligations.PushFollowsItsRule := by
  intro s v
  refine ⟨fun h => ⟨(push v s).2, ?_, ?_, stackWord_push_self h, fun j hj => stackWord_push_of_ne h hj⟩, push_full⟩
  · rw [push_ok h]
  · rw [push_ok h]
    rfl

/-- Settles O46: the two cases of `set_n`. -/
theorem setNFollowsItsRule : Obligations.SetNFollowsItsRule := by
  intro s index v
  refine ⟨setN_invalid, fun h0 hsp => ⟨s.setStackWord index v, setN_ok h0 hsp, rfl, ?_, fun j hj => ?_⟩⟩
  · exact stackWord_setStackWord_self s index v
  · exact stackWord_setStackWord_of_ne s v hj

/-- Settles O47: the two cases of `reserve`, and the first one at 0. -/
theorem reserveFollowsItsRule : Obligations.ReserveFollowsItsRule := by
  intro s n
  exact ⟨reserve_ok, reserve_full, fun h => reserve_ok (n := 0) h⟩

/-! ### Pushes undone by pops -/

/-- After a first pop that answers `w`, the others give the rest of the list. -/
theorem popAll_succ_of_pop {s t : State} {w : Word} (n : Nat) (h : pop s = .ok (w, t)) :
    popAll (n + 1) s = popAll n t >>= fun r => .ok (w :: r.1, r.2) := by
  rw [popAll, h]
  rfl

/-- The last of `n + 1` pops, taken off the end of the sequence instead of its front. -/
theorem popAll_succ_of_ok {n : Nat} {s t u : State} {vs : List Word} {v : Word} (hpops : popAll n s = .ok (vs, t))
    (hpop : pop t = .ok (v, u)) : popAll (n + 1) s = .ok (vs ++ [v], u) := by
  induction n generalizing s vs with
  | zero =>
    cases hpops
    exact popAll_succ_of_pop 0 hpop
  | succ n ih =>
    obtain ⟨⟨w, s'⟩, hw, hpops⟩ := bind_ok.mp hpops
    obtain ⟨⟨ws, t'⟩, hws, hpops⟩ := bind_ok.mp hpops
    cases hpops
    rw [popAll_succ_of_pop (n + 1) hw, ih hws]
    rfl

/-- Pops give pushed values back in reverse order, with `sp` and every word below it as before the pushes (R46). The
words below `sp` carry the induction: the last pop reads the word that the first push wrote. -/
theorem popAll_pushAll (vs : List Word) (s : State) (h : s.sp + vs.length ≤ s.cap) :
    ∃ t, popAll vs.length (pushAll vs s) = .ok (vs.reverse, t) ∧ t.sp = s.sp ∧
      ∀ j, j < s.sp → t.stackWord j = s.stackWord j := by
  induction vs generalizing s with
  | nil => exact ⟨s, rfl, rfl, fun _ _ => rfl⟩
  | cons v vs ih =>
    rw [List.length_cons] at h
    have hroom : s.sp < s.cap := by omega
    obtain ⟨t, hpops, hsp, hwords⟩ := ih (push v s).2 (by rw [push_sp hroom, push_cap hroom]; omega)
    rw [push_sp hroom] at hsp hwords
    have hv : t.stackWord s.sp = v := (hwords s.sp (Nat.lt_succ_self _)).trans (stackWord_push_self hroom)
    have hpop : pop t = .ok (v, t.setSp s.sp) := by
      rw [pop_ok (by omega), hsp, Nat.add_sub_cancel, hv]
    refine ⟨t.setSp s.sp, ?_, rfl, fun j hj => ?_⟩
    · rw [List.reverse_cons]
      exact popAll_succ_of_ok hpops hpop
    · exact (hwords j (by omega)).trans (stackWord_push_of_ne hroom hj.ne)

/-- Settles O45: the two cases of `pop`, and the reverse order by induction on the list of pushed values. -/
theorem popFollowsItsRule : Obligations.PopFollowsItsRule := by
  refine ⟨fun s => ⟨pop_empty, fun h => ⟨_, pop_ok h, rfl⟩⟩, fun vs s h => ?_⟩
  obtain ⟨t, hpops, hsp, -⟩ := popAll_pushAll vs s h
  exact ⟨t, hpops, hsp⟩

end Sys2Proof.Machine
end

section
/-! PROOF of the family '30_encoding.md': the extender (R58, O6), ignored bits (R73, O2), unknown opcodes (R72, O4). -/

namespace Sys2Proof

/-! ### The extender in integer arithmetic (R58) -/

/-- The extender reads no bit of its argument above the sign position. -/
theorem ext_low_bits (v : Word) (p : Nat) (signed : Bool) (hp : p < 64) :
    ext (BitVec.ofNat 64 (v.toNat % 2 ^ (p + 1))) p signed = ext v p signed := by
  have hlow : ∀ i, i ≤ p → (BitVec.ofNat 64 (v.toNat % 2 ^ (p + 1))).getLsbD i = v.getLsbD i := by
    intro i hi
    rw [BitVec.getLsbD_ofNat, Nat.testBit_mod_two_pow, BitVec.testBit_toNat]
    simp [hi.trans_lt hp, Nat.lt_succ_of_le hi]
  refine BitVec.eq_of_getLsbD_eq fun i hi => ?_
  rw [getLsbD_ext _ _ _ hi, getLsbD_ext _ _ _ hi, hlow p le_rfl]
  by_cases hip : i ≤ p
  · rw [if_pos hip, if_pos hip, hlow i hip]
  · rw [if_neg hip, if_neg hip]

/-- The extended value by cases on the sign, with the low `p + 1` bits read as a number. -/
theorem ext_eq_ite (v : Word) (p : Nat) (signed : Bool) (hp : p < 64) :
    ext v p signed =
      if signed = true ∧ 2 ^ p ≤ v.toNat % 2 ^ (p + 1) then
        BitVec.ofInt 64 ((v.toNat % 2 ^ (p + 1) : Nat) - 2 ^ (p + 1))
      else BitVec.ofNat 64 (v.toNat % 2 ^ (p + 1)) := by
  rw [← ext_low_bits v p signed hp]
  exact ext_ofNat (Nat.mod_lt _ (Nat.two_pow_pos _)) (Nat.succ_pos p) hp signed

/-- Sign set: the low bits count as a negative number, which a word holds. -/
theorem toInt_ext_of_sign {v : Word} {p : Nat} {signed : Bool} (hp : p < 64) (hs : signed = true)
    (hneg : 2 ^ p ≤ v.toNat % 2 ^ (p + 1)) :
    (ext v p signed).toInt = (v.toNat % 2 ^ (p + 1) : Nat) - 2 ^ (p + 1) := by
  have hlt : v.toNat % 2 ^ (p + 1) < 2 ^ (p + 1) := Nat.mod_lt _ (Nat.two_pow_pos _)
  have hpow : 2 ^ p ≤ 2 ^ 63 := Nat.pow_le_pow_right (by decide) (Nat.le_of_lt_succ hp)
  rw [ext_eq_ite v p signed hp, if_pos ⟨hs, hneg⟩]
  generalize v.toNat % 2 ^ (p + 1) = low at hneg hlt ⊢
  zify [pow_succ] at hneg hlt hpow ⊢
  exact BitVec.toInt_ofInt_eq_self (by decide) (by omega) (by omega)

/-- Sign clear or ignored: the low bits are the value. -/
theorem toNat_ext_of_no_sign {v : Word} {p : Nat} {signed : Bool} (hp : p < 64)
    (hpos : ¬ (signed = true ∧ 2 ^ p ≤ v.toNat % 2 ^ (p + 1))) :
    (ext v p signed).toNat = v.toNat % 2 ^ (p + 1) := by
  rw [ext_eq_ite v p signed hp, if_neg hpos, BitVec.toNat_ofNat]
  exact Nat.mod_eq_of_lt ((Nat.mod_le _ _).trans_lt v.isLt)

/-- Settles O6: the two cases of the sign, and sign extension of a field. -/
theorem extenderKeepsTheValueOfTheField : Obligations.ExtenderKeepsTheValueOfTheField := by
  refine ⟨fun v p signed hp => ⟨toInt_ext_of_sign hp, toNat_ext_of_no_sign hp⟩, fun n v h0 hn => ?_⟩
  rw [sext_eq_signExtend v h0 hn, BitVec.toInt_signExtend_of_le hn]

/-! ### Words that differ only in ignored bits decode alike (R73) -/

/-- The two words differ at most in the bits that `m` sets. -/
def agreeOutside (m w w' : InstrWord) : Prop := w &&& ~~~m = w' &&& ~~~m

/-- A field that no bit of `m` touches is the same in words that agree outside `m`. -/
theorem agreeOutside.field_eq {w w' m : InstrWord} (h : agreeOutside m w w') {lo n : Nat}
    (hm : field (~~~m) lo n = BitVec.allOnes n) : field w' lo n = field w lo n := by
  have hfield := congrArg (field · lo n) h
  simp only [field, BitVec.extractLsb'_and] at hfield hm ⊢
  simpa [hm] using hfield.symm

/-- A one-bit field outside `m` is the same in words that agree outside `m`. -/
theorem agreeOutside.flag_eq {w w' m : InstrWord} (h : agreeOutside m w w') {i : Nat}
    (hm : flag (~~~m) i = true) : flag w' i = flag w i := by
  have hflag := congrArg (flag · i) h
  simp only [flag, BitVec.getLsbD_and] at hflag hm ⊢
  simpa [hm] using hflag.symm

/-- No form ignores a bit of the opcode. -/
theorem opcode_not_ignored (i : Instr) : field (~~~i.ignoredBits) 27 5 = BitVec.allOnes 5 := by
  unfold Instr.ignoredBits
  split <;> decide

theorem decodeH_congr {w w' : InstrWord} (h : agreeOutside (decodeH w).ignoredBits w w') :
    decodeH w' = decodeH w := by
  have hm : (decodeH w).ignoredBits = 0x01FFFFFF#32 := by unfold decodeH; split <;> rfl
  rw [hm] at h
  rw [decodeH, decodeH, h.field_eq (by decide)]

theorem decodeM_congr {immForm : Sel → BitVec 21 → Instr} {regForm : Sel → Sel → Instr} {w w' : InstrWord}
    (himm : ∀ dst imm, (immForm dst imm).ignoredBits = 0#32)
    (hreg : ∀ dst src, (regForm dst src).ignoredBits = 0x0000FFFF#32)
    (h : agreeOutside (decodeM immForm regForm w).ignoredBits w w') :
    decodeM immForm regForm w' = decodeM immForm regForm w := by
  by_cases hm : flag w 21 = true
  · replace h : agreeOutside 0x0000FFFF#32 w w' := by rwa [decodeM, if_pos hm, hreg] at h
    simp (disch := decide) only [decodeM, h.flag_eq, h.field_eq, if_pos hm]
  · replace h : agreeOutside 0#32 w w' := by rwa [decodeM, if_neg hm, himm] at h
    simp (disch := decide) only [decodeM, h.flag_eq, h.field_eq, if_neg hm]

theorem decodeA_congr {w w' : InstrWord} (h : agreeOutside (decodeA w).ignoredBits w w') :
    decodeA w' = decodeA w := by
  by_cases hm : flag w 19 = true
  · replace h : agreeOutside 0x00041FFF#32 w w' := by rwa [decodeA, if_pos hm] at h
    simp (disch := decide) only [decodeA, h.flag_eq, h.field_eq, if_pos hm]
  · replace h : agreeOutside 0x00040000#32 w w' := by rwa [decodeA, if_neg hm] at h
    simp (disch := decide) only [decodeA, h.flag_eq, h.field_eq, if_neg hm]

theorem decodeB_congr {w w' : InstrWord} (h : agreeOutside (decodeB w).ignoredBits w w') :
    decodeB w' = decodeB w := by
  by_cases hm : flag w 25 = true
  · replace h : agreeOutside 0x000FFFFF#32 w w' := by rwa [decodeB, if_pos hm] at h
    simp (disch := decide) only [decodeB, h.flag_eq, h.field_eq, if_pos hm]
  · replace h : agreeOutside 0#32 w w' := by rwa [decodeB, if_neg hm] at h
    simp (disch := decide) only [decodeB, h.flag_eq, h.field_eq, if_neg hm]

theorem decodeL_congr {w w' : InstrWord} (h : agreeOutside (decodeL w).ignoredBits w w') :
    decodeL w' = decodeL w := by
  replace h : agreeOutside 0#32 w w' := h
  simp (disch := decide) only [decodeL, h.field_eq]

theorem decodeR_congr {immForm : Sel → Sel → BitVec 16 → Instr} {regForm : Sel → Sel → Sel → Instr}
    {w w' : InstrWord} (himm : ∀ dst src imm, (immForm dst src imm).ignoredBits = 0#32)
    (hreg : ∀ dst src src2, (regForm dst src src2).ignoredBits = 0x000007FF#32)
    (h : agreeOutside (decodeR immForm regForm w).ignoredBits w w') :
    decodeR immForm regForm w' = decodeR immForm regForm w := by
  by_cases hm : flag w 16 = true
  · replace h : agreeOutside 0x000007FF#32 w w' := by rwa [decodeR, if_pos hm, hreg] at h
    simp (disch := decide) only [decodeR, h.flag_eq, h.field_eq, if_pos hm]
  · replace h : agreeOutside 0#32 w w' := by rwa [decodeR, if_neg hm, himm] at h
    simp (disch := decide) only [decodeR, h.flag_eq, h.field_eq, if_neg hm]

theorem decodeC_congr {w w' : InstrWord} (h : agreeOutside (decodeC w).ignoredBits w w') :
    decodeC w' = decodeC w := by
  by_cases hm : flag w 22 = true
  · replace h : agreeOutside 0x0000007F#32 w w' := by rwa [decodeC, if_pos hm] at h
    simp (disch := decide) only [decodeC, h.flag_eq, h.field_eq, if_pos hm]
  · replace h : agreeOutside 0x00000FFF#32 w w' := by rwa [decodeC, if_neg hm] at h
    simp (disch := decide) only [decodeC, h.flag_eq, h.field_eq, if_neg hm]

theorem decodeLdr_congr {w w' : InstrWord} (h : agreeOutside (decodeLdr w).ignoredBits w w') :
    decodeLdr w' = decodeLdr w := by
  replace h : agreeOutside 0#32 w w' := h
  simp (disch := decide) only [decodeLdr, h.flag_eq, h.field_eq]

theorem decodeStr_congr {w w' : InstrWord} (h : agreeOutside (decodeStr w).ignoredBits w w') :
    decodeStr w' = decodeStr w := by
  replace h : agreeOutside 0x01000000#32 w w' := h
  simp (disch := decide) only [decodeStr, h.field_eq]

/-- Ignored bits do not change what a word decodes to: the opcode chooses the format, and each format reads only
fields that its forms do not ignore. -/
theorem decode_of_agreeOutside {w w' : InstrWord} {i : Instr} (hd : decode w = .instr i)
    (h : agreeOutside i.ignoredBits w w') : decode w' = .instr i := by
  have hop : opcode w' = opcode w := h.field_eq (opcode_not_ignored i)
  unfold decode at hd ⊢
  rw [hop]
  generalize (opcode w).toNat = op at hd ⊢
  split at hd <;> cases hd
  case h_1 => exact congrArg Decoded.instr (decodeH_congr h)
  case h_2 | h_3 | h_4 => exact congrArg Decoded.instr (decodeM_congr (fun _ _ => rfl) (fun _ _ => rfl) h)
  case h_5 => exact congrArg Decoded.instr (decodeA_congr h)
  case h_6 => exact congrArg Decoded.instr (decodeB_congr h)
  case h_7 => exact congrArg Decoded.instr (decodeL_congr h)
  case h_11 | h_12 => rfl  -- DIV, MOD
  case h_19 => exact congrArg Decoded.instr (decodeC_congr h)
  case h_20 => exact congrArg Decoded.instr (decodeLdr_congr h)
  case h_21 => exact congrArg Decoded.instr (decodeStr_congr h)
  all_goals exact congrArg Decoded.instr (decodeR_congr (fun _ _ _ => rfl) (fun _ _ _ => rfl) h)

/-! ### Unknown opcodes (R72) -/

/-- Opcodes 21 to 31 have no instruction, whatever the other bits hold. -/
theorem decode_of_unknown_opcode {w : InstrWord} (h : 21 ≤ (opcode w).toNat) :
    decode w = .unknownOpcode (opcode w) := by
  unfold decode
  split
  case h_22 => rfl
  all_goals omega

end Sys2Proof

namespace Sys2Proof.Machine

/-! ### The step, by what the fetched word decodes to -/

/-- A running step executes the instruction its word decodes to, after the fetch advance (10_state.md R27). -/
theorem step_of_decode_instr {s : State} {w : InstrWord} {i : Instr} (h : s.aboutToRun w)
    (hd : decode w = .instr i) : step s = exec i s.fetched := by
  obtain ⟨hr, hw⟩ := h
  simp only [step, State.isRunning, codeRead, hr, hw, hd, decide_true, if_true]
  rfl

/-- A running step whose word decodes to no instruction raises its fault after the fetch advance (R72). -/
theorem step_of_decode_unknownOpcode {s : State} {w : InstrWord} {op : BitVec 5} (h : s.aboutToRun w)
    (hd : decode w = .unknownOpcode op) : step s = raise (.unknownOpcode op) s.fetched := by
  obtain ⟨hr, hw⟩ := h
  simp only [step, State.isRunning, codeRead, hr, hw, hd, decide_true, if_true]
  rfl

/-- Settles O4: the decoder knows none of the opcodes, and the step raises what the decoder answers. -/
theorem unknownOpcodeFaults : Obligations.UnknownOpcodeFaults := by
  intro s w hw hop
  exact step_of_decode_unknownOpcode hw (decode_of_unknown_opcode hop)

/-! ### The code image is read by the fetch alone -/

/-- The machine with another code image. -/
def State.setCode (s : State) (c : List InstrWord) : State := { s with code := c }

/-- An operation that ignores the code image, and hands it on, ends the instruction alike under any. -/
theorem complete_setCode {s t : State} {c : List InstrWord} {r r' : Except ErrorKind State}
    (hr : r' = (·.setCode c) <$> r) (h : complete s r = .next t) :
    complete (s.setCode c) r' = .next (t.setCode c) := by
  subst hr
  cases r with
  | ok | error => cases h; rfl

/-- An operand does not depend on the code image. -/
theorem operand_setCode {n : Nat} (o : Operand n) (s : State) (c : List InstrWord) :
    operand o (s.setCode c) = operand o s := by
  cases o <;> rfl

theorem moveOp_setCode (f : Word → Word) (dst : Sel) (o : Operand 21) (s : State) (c : List InstrWord) :
    moveOp f dst o (s.setCode c) = (·.setCode c) <$> moveOp f dst o s := by
  simp only [moveOp, operand_setCode, map_bind, map_pure]
  rfl

theorem accumulateOp_setCode (dst : Sel) (quad : BitVec 2) (o : Operand 18) (s : State) (c : List InstrWord) :
    accumulateOp dst quad o (s.setCode c) = (·.setCode c) <$> accumulateOp dst quad o s := by
  simp only [accumulateOp, operand_setCode, map_bind, map_pure]
  rfl

theorem aluOp_setCode (f : Word → Word → Word) (dst src : Sel) (o : Operand 16) (s : State)
    (c : List InstrWord) : aluOp f dst src o (s.setCode c) = (·.setCode c) <$> aluOp f dst src o s := by
  simp only [aluOp, operand_setCode, map_bind, map_pure]
  rfl

theorem branchTo_setCode (link : Bool) (target : Word) (s : State) (c : List InstrWord) :
    branchTo link target (s.setCode c) = (branchTo link target s).setCode c := by
  cases link <;> rfl

theorem memWrite_setCode (addr : Word) (n : Nat) (v : Word) (s : State) (c : List InstrWord) :
    memWrite addr n v (s.setCode c) = (·.setCode c) <$> memWrite addr n v s := by
  rw [memWrite, memWrite, apply_ite (f := fun r : Except ErrorKind State => (·.setCode c) <$> r)]
  rfl

/-- What an instruction does is the same under every code image. -/
theorem exec_setCode {i : Instr} {s t : State} (c : List InstrWord) (h : exec i s = .next t) :
    exec i (s.setCode c) = .next (t.setCode c) := by
  cases i with
  | halt | ret | syscall | call | div | mod => cases h; rfl
  | mvnotImm | mvnotReg | mvnegImm | mvnegReg | movImm | movReg => exact complete_setCode (moveOp_setCode ..) h
  | mvaImm | mvaReg => exact complete_setCode (accumulateOp_setCode ..) h
  | addImm | addReg | subImm | subReg | multImm | multReg => exact complete_setCode (aluOp_setCode ..) h
  | andImm | andReg | orImm | orReg | xorImm | xorReg => exact complete_setCode (aluOp_setCode ..) h
  | lslImm | lslReg | lsrImm | lsrReg | asrImm | asrReg => exact complete_setCode (aluOp_setCode ..) h
  | brImm => cases h; exact congrArg Host.Outcome.next (branchTo_setCode ..)
  | brReg | lea | cmp | cset | ldr | str =>
    refine complete_setCode ?_ h
    simp only [map_bind, map_pure, branchTo_setCode, memWrite_setCode]
    rfl

/-- Settles O2: the two words decode alike, and the instruction they share runs alike under both code images. -/
theorem ignoredBitsChangeNothing : Obligations.IgnoredBitsChangeNothing := by
  intro w w' i hd hagree
  have hd' : decode w' = .instr i := decode_of_agreeOutside hd hagree
  refine ⟨hd', fun s t c hw hw' h => ?_⟩
  rw [step_of_decode_instr hw hd] at h
  rw [step_of_decode_instr hw' hd']
  exact exec_setCode c h

end Sys2Proof.Machine
end

section
/-! PROOF of the family '41_move.md' (R86 to R89): MVNOT, MVNEG and MOV (O11), MVA (O12). The four share one shape, the
destination first and then the operand that the form bit `m` chooses; its outcomes are proved once. -/

namespace Sys2Proof

/-! ### Which instructions the opcodes of the family decode to (30_encoding.md R62, R63) -/

theorem decode_of_opcode_one {w : InstrWord} (h : opcode w = 1#5) :
    decode w = .instr (decodeM .mvnotImm .mvnotReg w) := by simp [decode, h]

theorem decode_of_opcode_two {w : InstrWord} (h : opcode w = 2#5) :
    decode w = .instr (decodeM .mvnegImm .mvnegReg w) := by simp [decode, h]

theorem decode_of_opcode_three {w : InstrWord} (h : opcode w = 3#5) :
    decode w = .instr (decodeM .movImm .movReg w) := by simp [decode, h]

theorem decode_of_opcode_four {w : InstrWord} (h : opcode w = 4#5) : decode w = .instr (decodeA w) := by
  simp [decode, h]

/-! ### The computed values in integer arithmetic -/

/-- The complement is `2^64 - 1 - u(v)` (41_move.md R86). -/
theorem complement_eq_ofNat (v : Word) : ~~~v = BitVec.ofNat 64 (2 ^ 64 - 1 - v.toNat) := by
  refine BitVec.eq_of_toNat_eq ?_
  rw [BitVec.toNat_not, BitVec.toNat_ofNat, Nat.mod_eq_of_lt (by omega)]

/-- The negation is the negated signed reading, modulo 2^64 (R87). -/
theorem zero_sub_eq_ofInt (v : Word) : 0 - v = BitVec.ofInt 64 (0 - v.toInt) := by
  rw [Int.zero_sub, BitVec.ofInt_neg, BitVec.ofInt_toInt]
  exact BitVec.zero_sub v

/-- A shift to the left multiplies by a power of two, modulo 2^64 (R89). -/
theorem shiftLeft_eq_ofNat (v : Word) (k : Nat) : v <<< k = BitVec.ofNat 64 (v.toNat * 2 ^ k) := by
  refine BitVec.eq_of_toNat_eq ?_
  rw [BitVec.toNat_shiftLeft, Nat.shiftLeft_eq, BitVec.toNat_ofNat]

end Sys2Proof

namespace Sys2Proof.Machine

/-! ### Writing one register -/

/-- Writing a register slot has the frame of `writesReg`. -/
theorem writesReg_setReg (s : State) (d : Fin 16) (v : Word) : writesReg s d v (.next (s.setReg d v)) :=
  ⟨s.setReg d v, rfl, s.reg_setReg_self d v, fun _ hr => s.reg_setReg_of_ne v hr, rfl, rfl, rfl, rfl, fun _ => rfl,
    rfl, rfl, rfl, rfl, rfl, rfl⟩

/-! ### The shape of the family: destination, then operand -/

/-- The operand the form bit `m` chooses (30_encoding.md R69). -/
def chosenOperand {n : Nat} (m : Bool) (src : Sel) (imm : BitVec n) : Operand n := if m then .reg src else .imm imm

/-- `d <- reg(dst); v <- operand; x[d] <- g d v`: `moveOp` and `accumulateOp` at once. -/
def operandToReg {n : Nat} (g : Fin 16 → Word → Word) (dst : Sel) (o : Operand n) (s : State) :
    Except ErrorKind State := do
  let d ← resolve dst
  let v ← operand o s
  return s.setReg d (g d v)

theorem moveOp_eq_operandToReg (f : Word → Word) (dst : Sel) (o : Operand 21) (s : State) :
    moveOp f dst o s = operandToReg (fun _ v => f v) dst o s := rfl

theorem accumulateOp_eq_operandToReg (dst : Sel) (quad : BitVec 2) (o : Operand 18) (s : State) :
    accumulateOp dst quad o s = operandToReg (fun d v => s.reg d ||| v <<< (16 * quad.toNat)) dst o s := rfl

section
variable {n : Nat} {g : Fin 16 → Word → Word} {dst : Sel} {d : Fin 16} {o : Operand n} {s : State}

/-- An invalid destination faults before the operand is looked at. -/
theorem operandToReg_invalid_dst (h : 16 ≤ dst.toNat) :
    faultsFrom s (.invalidRegister dst) (complete s (operandToReg g dst o s)) := by
  rw [operandToReg, resolve_invalid h]
  rfl

/-- With a valid destination, the fault of the operand is the fault of the instruction. -/
theorem operandToReg_operand_error {e : ErrorKind} (hd : dst.toNat = d.val) (ho : operand o s = .error e) :
    faultsFrom s e (complete s (operandToReg g dst o s)) := by
  rw [operandToReg, resolve_valid hd, ok_bind, ho]
  rfl

/-- With a valid destination and an operand, the result goes to the destination and nowhere else. -/
theorem operandToReg_operand_ok {v : Word} (hd : dst.toNat = d.val) (ho : operand o s = .ok v) :
    writesReg s d (g d v) (complete s (operandToReg g dst o s)) := by
  rw [operandToReg, resolve_valid hd, ok_bind, ho]
  exact writesReg_setReg s d (g d v)

end

/-- What 41_move.md says of every instruction of the family, over its fields: the destination `dst`, the form bit `m`,
the source register `src` and the immediate `imm`, with `g` the rule's result. -/
def destinationRule {n : Nat} (g : Fin 16 → Word → Word) (dst : Sel) (m : Bool) (src : Sel) (imm : BitVec n)
    (s : State) (o : Out) : Prop :=
  (16 ≤ dst.toNat → faultsFrom s (.invalidRegister dst) o) ∧
  ∀ d : Fin 16, dst.toNat = d.val →
    (m = false → writesReg s d (g d (signedValue imm)) o) ∧
    (m = true → 16 ≤ src.toNat → faultsFrom s (.invalidRegister src) o) ∧
    (m = true → ∀ r : Fin 16, src.toNat = r.val → writesReg s d (g d (s.reg r)) o)

/-- The shape of the family follows the rule, whatever it computes. -/
theorem destinationRule_operandToReg {n : Nat} (h0 : 0 < n) (hn : n ≤ 64) (g : Fin 16 → Word → Word) (dst : Sel)
    (m : Bool) (src : Sel) (imm : BitVec n) (s : State) :
    destinationRule g dst m src imm s (complete s (operandToReg g dst (chosenOperand m src imm) s)) := by
  refine ⟨operandToReg_invalid_dst, fun d hd => ⟨?_, ?_, ?_⟩⟩
  · rintro rfl
    exact operandToReg_operand_ok hd (congrArg Except.ok (sext_eq_ofInt imm h0 hn))
  · rintro rfl hsrc
    exact operandToReg_operand_error hd (operand_reg_invalid s hsrc)
  · rintro rfl r hr
    exact operandToReg_operand_ok hd (operand_reg_valid s hr)

/-! ### Executing the instructions the formats decode to -/

/-- Format M: the two forms are one move of the operand that `w[21]` chooses (R62, R69). -/
theorem exec_decodeM {f : Word → Word} {immForm : Sel → BitVec 21 → Instr} {regForm : Sel → Sel → Instr}
    (himm : ∀ dst imm t, exec (immForm dst imm) t = complete t (moveOp f dst (.imm imm) t))
    (hreg : ∀ dst src t, exec (regForm dst src) t = complete t (moveOp f dst (.reg src) t)) (w : InstrWord)
    (s : State) :
    exec (decodeM immForm regForm w) s =
      complete s (moveOp f (field w 22 5) (chosenOperand (flag w 21) (field w 16 5) (field w 0 21)) s) := by
  unfold decodeM chosenOperand
  cases flag w 21
  · exact himm _ _ s
  · exact hreg _ _ s

/-- Format A: the two forms are one move-accumulate of the operand that `w[19]` chooses (R63, R69). -/
theorem exec_decodeA (w : InstrWord) (s : State) :
    exec (decodeA w) s = complete s (accumulateOp (field w 22 5) (field w 20 2)
      (chosenOperand (flag w 19) (field w 13 5) (field w 0 18)) s) := by
  unfold decodeA chosenOperand
  cases flag w 19 <;> rfl

/-! ### The rules over the bits of the word -/

/-- A step whose word decodes to the two forms of a move follows the rule of the function they compute. -/
theorem moveRule_of_decode {f : Word → Word} {immForm : Sel → BitVec 21 → Instr} {regForm : Sel → Sel → Instr}
    {s : State} {w : InstrWord} (hw : s.aboutToRun w) (hd : decode w = .instr (decodeM immForm regForm w))
    (himm : ∀ dst imm t, exec (immForm dst imm) t = complete t (moveOp f dst (.imm imm) t))
    (hreg : ∀ dst src t, exec (regForm dst src) t = complete t (moveOp f dst (.reg src) t)) : moveRule f s w := by
  have hstep := (step_of_decode_instr hw hd).trans (exec_decodeM himm hreg w s.fetched)
  have hrule := destinationRule_operandToReg (by decide) (by decide) (fun _ v => f v) (field w 22 5) (flag w 21)
    (field w 16 5) (field w 0 21) s.fetched
  rw [← moveOp_eq_operandToReg, ← hstep] at hrule
  exact hrule

/-- Settles O11: each opcode decodes to its two forms, which are one move of the chosen operand, and the function the
model computes is the rule's. -/
theorem moveInstructionsFollowTheirRules : Obligations.MoveInstructionsFollowTheirRules := by
  intro s w hw
  refine ⟨fun hop => ?_, fun hop => ?_, fun hop => ?_⟩
  · rw [← funext complement_eq_ofNat]
    exact moveRule_of_decode hw (decode_of_opcode_one hop) (fun _ _ _ => rfl) (fun _ _ _ => rfl)
  · rw [← funext zero_sub_eq_ofInt]
    exact moveRule_of_decode hw (decode_of_opcode_two hop) (fun _ _ _ => rfl) (fun _ _ _ => rfl)
  · exact moveRule_of_decode hw (decode_of_opcode_three hop) (fun _ _ _ => rfl) (fun _ _ _ => rfl)

/-- Settles O12: opcode 4 decodes to the two forms of one move-accumulate, whose shift is the rule's product. -/
theorem mvaFollowsItsRule : Obligations.MvaFollowsItsRule := by
  intro s w hw hop
  have hstep := (step_of_decode_instr hw (decode_of_opcode_four hop)).trans (exec_decodeA w s.fetched)
  have hrule := destinationRule_operandToReg (by decide) (by decide)
    (fun d v => s.fetched.reg d ||| v <<< (16 * (field w 20 2).toNat)) (field w 22 5) (flag w 19) (field w 13 5)
    (field w 0 18) s.fetched
  rw [← accumulateOp_eq_operandToReg, ← hstep] at hrule
  simp only [shiftLeft_eq_ofNat] at hrule
  exact hrule

end Sys2Proof.Machine
end

section
/-! PROOF of the family '42_branch_lea.md': BR (R90, O13) and LEA (R91, O14). Each outcome of the two instructions is
proved once of `exec`, in any state; the step runs them in the fetched state. -/

namespace Sys2Proof

/-- Opcode 6 decodes to LEA (30_encoding.md R65). -/
theorem decode_of_opcode_six {w : InstrWord} (h : opcode w = 6#5) : decode w = .instr (decodeL w) := by
  simp [decode, h]

end Sys2Proof

namespace Sys2Proof.Machine

section
variable {s : State} {link : Bool} {reg dst : Sel}

/-! ### Executing BR -/

/-- A branch has the frame of `jumpsTo`: `fp` holds the return index when the link bit is set, else its old value. -/
theorem jumpsTo_branchTo (link : Bool) (target : Word) (s : State) :
    jumpsTo s target (if link then s.ip else s.fp) (.next (branchTo link target s)) :=
  ⟨branchTo link target s, rfl, branchTo_ip .., branchTo_fp .., branchTo_reg link target s, branchTo_lastCmp ..,
    branchTo_run .., branchTo_byteAt link target s, branchTo_xr .., branchTo_iret .., branchTo_sysc .., branchTo_sp ..,
    branchTo_code .., branchTo_cap ..⟩

/-- BR, immediate form, jumps by the signed offset from `ip`, modulo 2^64. -/
theorem exec_brImm_jumpsTo (link : Bool) (imm : BitVec 25) (s : State) :
    jumpsTo s (BitVec.ofInt 64 ((s.ip.toNat : Int) + imm.toInt)) (if link then s.ip else s.fp)
      (exec (.brImm link imm) s) := by
  rw [← add_sext s.ip imm (by decide) (by decide)]
  exact jumpsTo_branchTo link (s.ip + sext imm) s

/-- BR, register form, on a valid selector jumps to the content of the register. -/
theorem exec_brReg_jumpsTo {r : Fin 16} (hr : reg.toNat = r.val) :
    jumpsTo s (s.reg r) (if link then s.ip else s.fp) (exec (.brReg link reg) s) := by
  rw [exec, execBrReg, resolve_valid hr]
  exact jumpsTo_branchTo link (s.reg r) s

/-- BR, register form, on an invalid selector faults before `fp` or `ip` is written. -/
theorem exec_brReg_invalid (h : 16 ≤ reg.toNat) :
    faultsFrom s (.invalidRegister reg) (exec (.brReg link reg) s) := by
  rw [exec, execBrReg, resolve_invalid h]
  rfl

/-! ### Executing LEA -/

/-- LEA on a valid destination writes `ip` plus the signed immediate, modulo 2^64, there and nowhere else. -/
theorem exec_lea_writesReg {d : Fin 16} (hd : dst.toNat = d.val) (imm : BitVec 22) :
    writesReg s d (BitVec.ofInt 64 ((s.ip.toNat : Int) + imm.toInt)) (exec (.lea dst imm) s) := by
  rw [exec, execLea, resolve_valid hd, ← add_sext s.ip imm (by decide) (by decide)]
  exact writesReg_setReg s d (s.ip + sext imm)

/-- LEA on an invalid destination faults. -/
theorem exec_lea_invalid (h : 16 ≤ dst.toNat) (imm : BitVec 22) :
    faultsFrom s (.invalidRegister dst) (exec (.lea dst imm) s) := by
  rw [exec, execLea, resolve_invalid h]
  rfl

end

/-! ### The rules over the bits of the word -/

/-- Settles O13: opcode 5 decodes to the form of BR that `w[25]` chooses, and the step is that form's jump or fault. -/
theorem brFollowsItsRule : Obligations.BrFollowsItsRule := by
  intro s w hw hop
  have hstep : step s = exec (decodeB w) s.fetched := step_of_decode_instr hw (decode_of_opcode_five hop)
  refine ⟨fun hm => ?_, fun hm hreg => ?_, fun hm r hr => ?_⟩
  · rw [hstep, decodeB_imm hm]
    exact exec_brImm_jumpsTo (flag w 26) (field w 0 25) s.fetched
  · rw [hstep, decodeB_reg hm]
    exact exec_brReg_invalid hreg
  · rw [hstep, decodeB_reg hm]
    exact exec_brReg_jumpsTo hr

/-- Settles O14: opcode 6 decodes to LEA, and the step is its register write or its fault. -/
theorem leaFollowsItsRule : Obligations.LeaFollowsItsRule := by
  intro s w hw hop
  have hstep : step s = exec (.lea (field w 22 5) (field w 0 22)) s.fetched :=
    step_of_decode_instr hw (decode_of_opcode_six hop)
  refine ⟨fun hdst => ?_, fun d hd => ?_⟩
  · rw [hstep]
    exact exec_lea_invalid hdst _
  · rw [hstep]
    exact exec_lea_writesReg hd _

end Sys2Proof.Machine
end

section
/-! PROOF of the family '43_arith.md': ADD, SUB and MULT (R93 to R95, O15), DIV and MOD (R96, R97, O16). The rule of
format R is proved once, for any computed function; the arithmetic of each opcode is a fact about words. -/

namespace Sys2Proof

/-! ### Which instructions the opcodes of the family decode to (30_encoding.md R66) -/

theorem decode_of_opcode_seven {w : InstrWord} (h : opcode w = 7#5) :
    decode w = .instr (decodeR .addImm .addReg w) := by simp [decode, h]

theorem decode_of_opcode_eight {w : InstrWord} (h : opcode w = 8#5) :
    decode w = .instr (decodeR .subImm .subReg w) := by simp [decode, h]

theorem decode_of_opcode_nine {w : InstrWord} (h : opcode w = 9#5) :
    decode w = .instr (decodeR .multImm .multReg w) := by simp [decode, h]

theorem decode_of_opcode_ten {w : InstrWord} (h : opcode w = 10#5) : decode w = .instr .div := by
  simp [decode, h]

theorem decode_of_opcode_eleven {w : InstrWord} (h : opcode w = 11#5) : decode w = .instr .mod := by
  simp [decode, h]

end Sys2Proof

namespace Sys2Proof.Machine

/-! ### Word arithmetic in integer arithmetic -/

theorem sumOf_add (a b : Word) : sumOf a b (a + b) := BitVec.toNat_add a b

theorem productOf_mul (a b : Word) : productOf a b (a * b) := BitVec.toNat_mul a b

theorem differenceOf_sub (a b : Word) : differenceOf a b (a - b) := by
  unfold differenceOf
  rw [BitVec.toNat_sub]
  omega

/-! ### The operand the form bit chooses -/

section
variable {n : Nat} {m : Bool} {src : Sel} {imm : BitVec n} {s : State}

theorem operand_chosenOperand_imm (h0 : 0 < n) (hn : n ≤ 64) (hm : m = false) :
    operand (chosenOperand m src imm) s = .ok (signedValue imm) := by
  subst hm
  exact congrArg Except.ok (sext_eq_ofInt imm h0 hn)

theorem operand_chosenOperand_invalid (hm : m = true) (h : 16 ≤ src.toNat) :
    operand (chosenOperand m src imm) s = .error (.invalidRegister src) := by
  subst hm
  exact operand_reg_invalid s h

theorem operand_chosenOperand_reg {r : Fin 16} (hm : m = true) (hr : src.toNat = r.val) :
    operand (chosenOperand m src imm) s = .ok (s.reg r) := by
  subst hm
  exact operand_reg_valid s hr

end

/-! ### The outcomes of a format R operation, in the order of its faults -/

section
variable {f : Word → Word → Word} {dst src : Sel} {d a : Fin 16} {o : Operand 16} {s : State}

/-- An invalid destination faults first. -/
theorem aluOp_invalid_dst (h : 16 ≤ dst.toNat) :
    faultsFrom s (.invalidRegister dst) (complete s (aluOp f dst src o s)) := by
  rw [aluOp, resolve_invalid h]
  rfl

/-- With a valid destination, an invalid source faults before the last operand is looked at. -/
theorem aluOp_invalid_src (hd : dst.toNat = d.val) (h : 16 ≤ src.toNat) :
    faultsFrom s (.invalidRegister src) (complete s (aluOp f dst src o s)) := by
  rw [aluOp, resolve_valid hd, ok_bind, resolve_invalid h]
  rfl

/-- With valid destination and source, the fault of the last operand is the fault of the instruction. -/
theorem aluOp_operand_error {e : ErrorKind} (hd : dst.toNat = d.val) (ha : src.toNat = a.val)
    (ho : operand o s = .error e) : faultsFrom s e (complete s (aluOp f dst src o s)) := by
  rw [aluOp, resolve_valid hd, ok_bind, resolve_valid ha, ok_bind, ho]
  rfl

/-- With every operand at hand, the result goes to the destination and nowhere else. -/
theorem aluOp_operand_ok {b : Word} (hd : dst.toNat = d.val) (ha : src.toNat = a.val) (ho : operand o s = .ok b) :
    writesReg s d (f (s.reg a) b) (complete s (aluOp f dst src o s)) := by
  rw [aluOp, resolve_valid hd, ok_bind, resolve_valid ha, ok_bind, ho]
  exact writesReg_setReg s d (f (s.reg a) b)

end

/-! ### The rule of format R over the bits of the word -/

/-- Format R: the two forms are one operation on the last operand that `w[16]` chooses (R66, R69). -/
theorem exec_decodeR {f : Word → Word → Word} {immForm : Sel → Sel → BitVec 16 → Instr}
    {regForm : Sel → Sel → Sel → Instr}
    (himm : ∀ dst src imm t, exec (immForm dst src imm) t = complete t (aluOp f dst src (.imm imm) t))
    (hreg : ∀ dst src src2 t, exec (regForm dst src src2) t = complete t (aluOp f dst src (.reg src2) t))
    (w : InstrWord) (s : State) :
    exec (decodeR immForm regForm w) s = complete s (aluOp f (field w 22 5) (field w 17 5)
      (chosenOperand (flag w 16) (field w 11 5) (field w 0 16)) s) := by
  unfold decodeR chosenOperand
  cases flag w 16
  · exact himm _ _ _ s
  · exact hreg _ _ _ s

/-- A step whose word decodes to the two forms of a format R operation follows the rule of any relation `P` between
operands and result that the computed function satisfies. -/
theorem aluRule_of_decode {P : Word → Word → Word → Prop} {f : Word → Word → Word}
    {immForm : Sel → Sel → BitVec 16 → Instr} {regForm : Sel → Sel → Sel → Instr} {s : State} {w : InstrWord}
    (hP : ∀ a b, P a b (f a b)) (hw : s.aboutToRun w) (hd : decode w = .instr (decodeR immForm regForm w))
    (himm : ∀ dst src imm t, exec (immForm dst src imm) t = complete t (aluOp f dst src (.imm imm) t))
    (hreg : ∀ dst src src2 t, exec (regForm dst src src2) t = complete t (aluOp f dst src (.reg src2) t)) :
    aluRule P s w := by
  have hstep := (step_of_decode_instr hw hd).trans (exec_decodeR himm hreg w s.fetched)
  unfold aluRule
  rw [hstep]
  refine ⟨aluOp_invalid_dst, fun d hdst => ⟨aluOp_invalid_src hdst, fun a ha => ⟨fun hm => ?_, fun hm hsrc2 => ?_,
    fun hm b hb => ?_⟩⟩⟩
  · exact ⟨_, hP _ _, aluOp_operand_ok hdst ha (operand_chosenOperand_imm (by decide) (by decide) hm)⟩
  · exact aluOp_operand_error hdst ha (operand_chosenOperand_invalid hm hsrc2)
  · exact ⟨_, hP _ _, aluOp_operand_ok hdst ha (operand_chosenOperand_reg hm hb)⟩

/-- Settles O15: each opcode decodes to its two forms, which are one format R operation, and the word operation it
computes is the rule's integer operation modulo 2^64. -/
theorem arithmeticFollowsItsRules : Obligations.ArithmeticFollowsItsRules := by
  intro s w hw
  refine ⟨fun hop => ?_, fun hop => ?_, fun hop => ?_⟩
  · exact aluRule_of_decode sumOf_add hw (decode_of_opcode_seven hop) (fun _ _ _ _ => rfl) (fun _ _ _ _ => rfl)
  · exact aluRule_of_decode differenceOf_sub hw (decode_of_opcode_eight hop) (fun _ _ _ _ => rfl)
      (fun _ _ _ _ => rfl)
  · exact aluRule_of_decode productOf_mul hw (decode_of_opcode_nine hop) (fun _ _ _ _ => rfl) (fun _ _ _ _ => rfl)

/-! ### DIV and MOD -/

theorem exec_div_faults (s : State) : faultsFrom s (.unsupported 10#5) (exec .div s) := rfl

theorem exec_mod_faults (s : State) : faultsFrom s (.unsupported 11#5) (exec .mod s) := rfl

/-- Settles O16: the two opcodes alone decide the instruction, and it faults in every state. -/
theorem divAndModAreUnsupported : Obligations.DivAndModAreUnsupported := by
  refine ⟨fun s w hw => ⟨fun hop => ?_, fun hop => ?_⟩, fun s => ⟨exec_div_faults s, exec_mod_faults s⟩⟩
  · rw [step_of_decode_instr hw (decode_of_opcode_ten hop)]
    exact exec_div_faults s.fetched
  · rw [step_of_decode_instr hw (decode_of_opcode_eleven hop)]
    exact exec_mod_faults s.fetched

end Sys2Proof.Machine
end

section
/-! PROOF of the family '44_bitwise_shift.md': AND, OR and XOR (R99 to R101, O17), LSL, LSR and ASR (R102 to R105, O18).
All six are format R operations; what is left is what each word operation computes, bit by bit or in integer arithmetic. -/

namespace Sys2Proof

/-! ### Which instructions the opcodes of the family decode to (30_encoding.md R66) -/

theorem decode_of_opcode_twelve {w : InstrWord} (h : opcode w = 12#5) :
    decode w = .instr (decodeR .andImm .andReg w) := by simp [decode, h]

theorem decode_of_opcode_thirteen {w : InstrWord} (h : opcode w = 13#5) :
    decode w = .instr (decodeR .orImm .orReg w) := by simp [decode, h]

theorem decode_of_opcode_fourteen {w : InstrWord} (h : opcode w = 14#5) :
    decode w = .instr (decodeR .xorImm .xorReg w) := by simp [decode, h]

theorem decode_of_opcode_fifteen {w : InstrWord} (h : opcode w = 15#5) :
    decode w = .instr (decodeR .lslImm .lslReg w) := by simp [decode, h]

theorem decode_of_opcode_sixteen {w : InstrWord} (h : opcode w = 16#5) :
    decode w = .instr (decodeR .lsrImm .lsrReg w) := by simp [decode, h]

theorem decode_of_opcode_seventeen {w : InstrWord} (h : opcode w = 17#5) :
    decode w = .instr (decodeR .asrImm .asrReg w) := by simp [decode, h]

end Sys2Proof

namespace Sys2Proof.Machine

/-! ### The bitwise operations, bit by bit -/

theorem conjunctionOf_and (a b : Word) : conjunctionOf a b (a &&& b) := fun _ _ => BitVec.getLsbD_and

theorem disjunctionOf_or (a b : Word) : disjunctionOf a b (a ||| b) := fun _ _ => BitVec.getLsbD_or

theorem exclusiveOrOf_xor (a b : Word) : exclusiveOrOf a b (a ^^^ b) := fun _ _ => BitVec.getLsbD_xor

/-- Settles O17: each opcode decodes to its two forms, which are one format R operation, and the word operation it
computes acts on each bit position alone. -/
theorem bitwiseFollowsItsRules : Obligations.BitwiseFollowsItsRules := by
  intro s w hw
  refine ⟨fun hop => ?_, fun hop => ?_, fun hop => ?_⟩
  · exact aluRule_of_decode conjunctionOf_and hw (decode_of_opcode_twelve hop) (fun _ _ _ _ => rfl)
      (fun _ _ _ _ => rfl)
  · exact aluRule_of_decode disjunctionOf_or hw (decode_of_opcode_thirteen hop) (fun _ _ _ _ => rfl)
      (fun _ _ _ _ => rfl)
  · exact aluRule_of_decode exclusiveOrOf_xor hw (decode_of_opcode_fourteen hop) (fun _ _ _ _ => rfl)
      (fun _ _ _ _ => rfl)

/-! ### The shifts in integer arithmetic, by the operand modulo 64 (R105) -/

theorem shiftedLeft_shiftAmount (a b : Word) : shiftedLeft a b (a <<< shiftAmount b) := by
  rw [shiftedLeft, shiftAmount_eq, BitVec.toNat_shiftLeft, Nat.shiftLeft_eq]

theorem shiftedRight_shiftAmount (a b : Word) : shiftedRight a b (a >>> shiftAmount b) := by
  rw [shiftedRight, shiftAmount_eq, BitVec.toNat_ushiftRight, Nat.shiftRight_eq_div_pow]

theorem shiftedRightSigned_shiftAmount (a b : Word) : shiftedRightSigned a b (a.sshiftRight (shiftAmount b)) := by
  rw [shiftedRightSigned, shiftAmount_eq, BitVec.toInt_sshiftRight, Int.shiftRight_eq_div_pow, Nat.cast_pow,
    Nat.cast_ofNat]

/-- Settles O18: each opcode decodes to its two forms, which are one format R operation, and the low six bits of the
operand are its value modulo 64, so that the word shift is the rule's product or floor quotient. -/
theorem shiftsFollowTheirRules : Obligations.ShiftsFollowTheirRules := by
  intro s w hw
  refine ⟨fun hop => ?_, fun hop => ?_, fun hop => ?_⟩
  · exact aluRule_of_decode shiftedLeft_shiftAmount hw (decode_of_opcode_fifteen hop) (fun _ _ _ _ => rfl)
      (fun _ _ _ _ => rfl)
  · exact aluRule_of_decode shiftedRight_shiftAmount hw (decode_of_opcode_sixteen hop) (fun _ _ _ _ => rfl)
      (fun _ _ _ _ => rfl)
  · exact aluRule_of_decode shiftedRightSigned_shiftAmount hw (decode_of_opcode_seventeen hop) (fun _ _ _ _ => rfl)
      (fun _ _ _ _ => rfl)

end Sys2Proof.Machine
end

section
/-! PROOF of the family '45_compare.md': the eleven conditions (R106, O23), CMP (R107, O19) and CSET (R108, O20). The
two instructions share their first two operands and the condition; each outcome of them is proved once of `exec`. -/

namespace Sys2Proof

/-! ### Which instructions opcode 18 decodes to (30_encoding.md R67) -/

theorem decode_of_opcode_eighteen {w : InstrWord} (h : opcode w = 18#5) : decode w = .instr (decodeC w) := by
  simp [decode, h]

theorem decodeC_cmp {w : InstrWord} (h : flag w 22 = false) :
    decodeC w = .cmp (field w 23 4) (field w 17 5) (field w 12 5) := by
  simp [decodeC, h]

theorem decodeC_cset {w : InstrWord} (h : flag w 22 = true) :
    decodeC w = .cset (field w 23 4) (field w 17 5) (field w 12 5) (field w 7 5) := by
  simp [decodeC, h]

end Sys2Proof

namespace Sys2Proof.Machine

/-! ### The conditions in integer arithmetic -/

/-- The condition a code selects holds exactly when the table's integer comparison of that code does. -/
theorem condHolds_iff_condTable {cc : BitVec 4} {k : Cond} (hk : condOfCode cc = some k) (a b : Word) :
    condHolds k a b = true ↔ condTable cc a b := by
  unfold condOfCode at hk
  split at hk <;> cases hk <;> rename_i hcc <;> unfold condTable <;> rw [hcc]
  case h_1 => exact iff_of_true rfl trivial
  case h_2 => exact beq_iff_eq.trans BitVec.toNat_inj.symm
  case h_3 => exact bne_iff_ne.trans BitVec.toNat_ne
  case h_4 | h_6 => exact BitVec.slt_iff_toInt_lt
  case h_5 | h_7 => exact BitVec.sle_iff_toInt_le
  case h_8 | h_10 => exact BitVec.ult_iff_lt
  case h_9 | h_11 => exact BitVec.ule_iff_le

/-- A code evaluates only by way of the condition it selects. -/
theorem evalCond_eq_ok {cc : BitVec 4} {a b : Word} {c : Bool} :
    evalCond cc a b = .ok c ↔ ∃ k, condOfCode cc = some k ∧ condHolds k a b = c := by
  unfold evalCond
  cases condOfCode cc <;> simp

/-- What a code evaluates to is the truth of the table's comparison. -/
theorem condTable_iff_of_evalCond {cc : BitVec 4} {a b : Word} {c : Bool} (h : evalCond cc a b = .ok c) :
    c = true ↔ condTable cc a b := by
  obtain ⟨k, hk, rfl⟩ := evalCond_eq_ok.mp h
  exact condHolds_iff_condTable hk a b

/-- A code up to 10 evaluates to the truth of the table's comparison. -/
theorem evalCond_decides_condTable {cc : BitVec 4} (h : cc.toNat ≤ 10) (a b : Word) :
    ∃ c, evalCond cc a b = .ok c ∧ (c = true ↔ condTable cc a b) := by
  obtain ⟨c, hc⟩ := evalCond_defined (Nat.not_le.mpr (Nat.lt_succ_of_le h)) a b
  exact ⟨c, hc, condTable_iff_of_evalCond hc⟩

/-! ### Signed against unsigned -/

/-- An exclusive or with a bit changes it exactly when the other bit is set. -/
theorem xor_ne_right_iff (d u : Bool) : (d ^^ u) ≠ u ↔ d = true := by
  cases d <;> simp

theorem slt_ne_ult_iff (a b : Word) : a.slt b ≠ a.ult b ↔ a.msb ≠ b.msb := by
  rw [BitVec.slt_eq_ult, xor_ne_right_iff, bne_iff_ne]

theorem sle_ne_ule_iff (a b : Word) : a.sle b ≠ a.ule b ↔ a.msb ≠ b.msb := by
  rw [BitVec.sle_eq_ule, xor_ne_right_iff, bne_iff_ne]

/-- Settles O23: each condition is the table's comparison, and a signed order is the unsigned one with the answer
flipped when the sign bits differ; `sup` and `supeq` are `inf` and `infeq` with the operands exchanged. -/
theorem conditionsAreIntegerComparisons : Obligations.ConditionsAreIntegerComparisons := by
  intro a b
  refine ⟨fun cc h => evalCond_decides_condTable h a b, fun cc h => evalCond_reserved h a b, ?_, ?_, ?_, ?_⟩
  · exact (slt_ne_ult_iff b a).trans ne_comm
  · exact (sle_ne_ule_iff b a).trans ne_comm
  · exact slt_ne_ult_iff a b
  · exact sle_ne_ule_iff a b

/-! ### Writing the latch -/

/-- A latch write has the frame of `writesLatch`. -/
theorem writesLatch_setLatch (s : State) (c : Bool) : writesLatch s c (.next (s.setLatch c)) :=
  ⟨s.setLatch c, rfl, rfl, s.reg_setLatch c, rfl, rfl, rfl, s.byteAt_setLatch c, rfl, rfl, rfl, rfl, rfl, rfl⟩

/-! ### The two compared registers, which CMP and CSET resolve first -/

section
variable {lhs rhs dst : Sel} {l r d : Fin 16} {s : State} {cc : BitVec 4}

section
variable {rest : Fin 16 → Fin 16 → Except ErrorKind State}

/-- An invalid `lhs` faults first. -/
theorem resolvePair_invalid_lhs (h : 16 ≤ lhs.toNat) :
    faultsFrom s (.invalidRegister lhs) (complete s (resolve lhs >>= fun l => resolve rhs >>= rest l)) := by
  rw [resolve_invalid h]
  rfl

/-- With a valid `lhs`, an invalid `rhs` faults before the rest of the instruction. -/
theorem resolvePair_invalid_rhs (hl : lhs.toNat = l.val) (h : 16 ≤ rhs.toNat) :
    faultsFrom s (.invalidRegister rhs) (complete s (resolve lhs >>= fun l => resolve rhs >>= rest l)) := by
  rw [resolve_valid hl, ok_bind, resolve_invalid h]
  rfl

end

/-! ### Executing CMP -/

/-- CMP with valid selectors and a reserved condition code faults before the latch is written. -/
theorem exec_cmp_reserved (hl : lhs.toNat = l.val) (hr : rhs.toNat = r.val) (h : 11 ≤ cc.toNat) :
    faultsFrom s (.unsupported 18#5) (exec (.cmp cc lhs rhs) s) := by
  rw [exec, execCmp, resolve_valid hl, ok_bind, resolve_valid hr, ok_bind, evalCond_reserved h]
  rfl

/-- CMP with valid selectors and a condition that evaluates writes its truth to the latch and nothing else. -/
theorem exec_cmp_writesLatch {c : Bool} (hl : lhs.toNat = l.val) (hr : rhs.toNat = r.val)
    (hc : evalCond cc (s.reg l) (s.reg r) = .ok c) : writesLatch s c (exec (.cmp cc lhs rhs) s) := by
  rw [exec, execCmp, resolve_valid hl, ok_bind, resolve_valid hr, ok_bind, hc]
  exact writesLatch_setLatch s c

/-! ### Executing CSET -/

/-- CSET with valid compared registers and an invalid destination faults before the condition code is looked at. -/
theorem exec_cset_invalid_dst (hl : lhs.toNat = l.val) (hr : rhs.toNat = r.val) (h : 16 ≤ dst.toNat) :
    faultsFrom s (.invalidRegister dst) (exec (.cset cc lhs rhs dst) s) := by
  rw [exec, execCset, resolve_valid hl, ok_bind, resolve_valid hr, ok_bind, resolve_invalid h]
  rfl

/-- CSET with valid selectors and a reserved condition code faults. -/
theorem exec_cset_reserved (hl : lhs.toNat = l.val) (hr : rhs.toNat = r.val) (hd : dst.toNat = d.val)
    (h : 11 ≤ cc.toNat) : faultsFrom s (.unsupported 18#5) (exec (.cset cc lhs rhs dst) s) := by
  rw [exec, execCset, resolve_valid hl, ok_bind, resolve_valid hr, ok_bind, resolve_valid hd, ok_bind,
    evalCond_reserved h]
  rfl

/-- CSET with valid selectors and a condition that evaluates writes its truth, as 1 or 0, to `dst` and nowhere else. -/
theorem exec_cset_writesReg {c : Bool} (hl : lhs.toNat = l.val) (hr : rhs.toNat = r.val) (hd : dst.toNat = d.val)
    (hc : evalCond cc (s.reg l) (s.reg r) = .ok c) : writesReg s d (b2i c) (exec (.cset cc lhs rhs dst) s) := by
  rw [exec, execCset, resolve_valid hl, ok_bind, resolve_valid hr, ok_bind, resolve_valid hd, ok_bind, hc]
  exact writesReg_setReg s d (b2i c)

end

/-! ### The rules over the bits of the word -/

/-- Settles O19: opcode 18 with `w[22] = 0` decodes to CMP, and the step is its latch write or the first fault that
applies. -/
theorem cmpFollowsItsRule : Obligations.CmpFollowsItsRule := by
  intro s w hw hop hm
  have hstep : step s = exec (.cmp (field w 23 4) (field w 17 5) (field w 12 5)) s.fetched :=
    (step_of_decode_instr hw (decode_of_opcode_eighteen hop)).trans (by rw [decodeC_cmp hm])
  unfold cmpRule
  rw [hstep]
  refine ⟨resolvePair_invalid_lhs, fun l hl => ⟨resolvePair_invalid_rhs hl, fun r hr =>
    ⟨exec_cmp_reserved hl hr, fun hcc => ?_⟩⟩⟩
  obtain ⟨c, hc, hiff⟩ := evalCond_decides_condTable hcc (s.reg l) (s.reg r)
  exact ⟨c, hiff, exec_cmp_writesLatch hl hr hc⟩

/-- Settles O20: opcode 18 with `w[22] = 1` decodes to CSET, and the step is its register write or the first fault that
applies. -/
theorem csetFollowsItsRule : Obligations.CsetFollowsItsRule := by
  intro s w hw hop hm
  have hstep : step s = exec (.cset (field w 23 4) (field w 17 5) (field w 12 5) (field w 7 5)) s.fetched :=
    (step_of_decode_instr hw (decode_of_opcode_eighteen hop)).trans (by rw [decodeC_cset hm])
  unfold csetRule
  rw [hstep]
  refine ⟨resolvePair_invalid_lhs, fun l hl => ⟨resolvePair_invalid_rhs hl, fun r hr =>
    ⟨exec_cset_invalid_dst hl hr, fun d hd => ⟨exec_cset_reserved hl hr hd, fun hcc => ?_⟩⟩⟩⟩
  obtain ⟨c, hc, hiff⟩ := evalCond_decides_condTable hcc (s.reg l) (s.reg r)
  have hwrite := exec_cset_writesReg (s := s.fetched) hl hr hd hc
  refine ⟨fun htrue => ?_, fun hfalse => ?_⟩
  · rwa [hiff.mpr htrue] at hwrite
  · rwa [Bool.eq_false_iff.mpr (mt hiff.mp hfalse)] at hwrite

end Sys2Proof.Machine
end

section
/-! PROOF of the family '46_load_store.md' (R109 to R111): LDR (O21) and STR (O22). The two resolve `rt` and `base`
first; each later outcome is proved once of `exec`, at the effective address. -/

namespace Sys2Proof

/-! ### Which instructions the opcodes of the family decode to (30_encoding.md R68) -/

theorem decode_of_opcode_nineteen {w : InstrWord} (h : opcode w = 19#5) : decode w = .instr (decodeLdr w) := by
  simp [decode, h]

theorem decode_of_opcode_twenty {w : InstrWord} (h : opcode w = 20#5) : decode w = .instr (decodeStr w) := by
  simp [decode, h]

end Sys2Proof

namespace Sys2Proof.Machine

/-! ### The loaded value and the stored bytes -/

/-- The extender applied to a sized load is the extended value of its bytes: the sign bit is bit `8n - 1` (R110). -/
theorem ext_loadLE_eq_extendedValue (s : State) (a : Nat) (ds : DataSize) (sx : Bool) :
    ext (BitVec.ofNat 64 (Memory.loadLE s.mem a (sizeBytes ds))) (8 * sizeBytes ds - 1) sx =
      extendedValue (bytesValue s a (sizeBytes ds)) (sizeBytes ds) sx := by
  have hsize := sizeBytes_cases ds
  have hsum : Memory.loadLE s.mem a (sizeBytes ds) = bytesValue s a (sizeBytes ds) := Memory.loadLE_eq_sum ..
  rw [ext_ofNat (Memory.loadLE_lt ..) (by omega) (by omega), hsum]
  rfl

/-- A sized store has the frame of `storesBytes`. -/
theorem storesBytes_storeLE (s : State) (a n : Nat) (v : Word) :
    storesBytes s a n v (.next (s.setMem (Memory.storeLE s.mem a v n))) :=
  ⟨_, rfl, fun _ hk => Memory.readByte_storeLE hk, fun _ ha => Memory.readByte_storeLE_outside ha, fun _ => rfl,
    rfl, rfl, rfl, rfl, rfl, rfl, rfl, rfl, rfl, rfl⟩

section
variable {ds : DataSize} {sx : Bool} {rt base : Sel} {off : BitVec 14} {t b : Fin 16} {s : State}

/-! ### Executing LDR -/

/-- LDR with valid selectors and an access past the data space faults before `rt` is written. -/
theorem exec_ldr_memoryFault (ht : rt.toNat = t.val) (hb : base.toNat = b.val)
    (h : 8 * s.cap < (effectiveAddress b off s).toNat + sizeBytes ds) :
    faultsFrom s (.memoryFault (effectiveAddress b off s) (sizeBytes ds)) (exec (.ldr ds sx rt base off) s) := by
  rw [exec, execLdr, resolve_valid ht, ok_bind, resolve_valid hb, ok_bind, memRead_fault h]
  rfl

/-- LDR with valid selectors and an access inside the data space writes the extended value of the bytes to `rt` and
nowhere else. -/
theorem exec_ldr_writesReg (ht : rt.toNat = t.val) (hb : base.toNat = b.val)
    (h : (effectiveAddress b off s).toNat + sizeBytes ds ≤ 8 * s.cap) :
    writesReg s t (extendedValue (bytesValue s (effectiveAddress b off s).toNat (sizeBytes ds)) (sizeBytes ds) sx)
      (exec (.ldr ds sx rt base off) s) := by
  rw [exec, execLdr, resolve_valid ht, ok_bind, resolve_valid hb, ok_bind, memRead_ok h, ok_bind,
    ext_loadLE_eq_extendedValue]
  exact writesReg_setReg s t _

/-! ### Executing STR -/

/-- STR with valid selectors and an access past the data space faults with no byte written. -/
theorem exec_str_memoryFault (ht : rt.toNat = t.val) (hb : base.toNat = b.val)
    (h : 8 * s.cap < (effectiveAddress b off s).toNat + sizeBytes ds) :
    faultsFrom s (.memoryFault (effectiveAddress b off s) (sizeBytes ds)) (exec (.str ds rt base off) s) := by
  rw [exec, execStr, resolve_valid ht, ok_bind, resolve_valid hb, ok_bind, memWrite_fault h]
  rfl

/-- STR with valid selectors and an access inside the data space stores the low bytes of `rt` and no other byte. -/
theorem exec_str_storesBytes (ht : rt.toNat = t.val) (hb : base.toNat = b.val)
    (h : (effectiveAddress b off s).toNat + sizeBytes ds ≤ 8 * s.cap) :
    storesBytes s (effectiveAddress b off s).toNat (sizeBytes ds) (s.reg t) (exec (.str ds rt base off) s) := by
  rw [exec, execStr, resolve_valid ht, ok_bind, resolve_valid hb, ok_bind, memWrite_ok h]
  exact storesBytes_storeLE s _ _ _

end

/-! ### The rules over the bits of the word -/

/-- Settles O21: opcode 19 decodes to LDR, and the step is its register write or the first fault that applies. -/
theorem ldrFollowsItsRule : Obligations.LdrFollowsItsRule := by
  intro s w hw hop
  have hstep : step s = exec (decodeLdr w) s.fetched := step_of_decode_instr hw (decode_of_opcode_nineteen hop)
  unfold ldrRule
  rw [hstep, ← sizeBytes_ofField]
  refine ⟨resolvePair_invalid_lhs, fun t ht => ⟨resolvePair_invalid_rhs ht, fun b hb => ?_⟩⟩
  rw [← State.reg_fetched, ← effectiveAddress_eq]
  exact ⟨exec_ldr_memoryFault (s := s.fetched) ht hb, exec_ldr_writesReg ht hb⟩

/-- Settles O22: opcode 20 decodes to STR, and the step is its sized store or the first fault that applies. -/
theorem strFollowsItsRule : Obligations.StrFollowsItsRule := by
  intro s w hw hop
  have hstep : step s = exec (decodeStr w) s.fetched := step_of_decode_instr hw (decode_of_opcode_twenty hop)
  unfold strRule
  rw [hstep, ← sizeBytes_ofField]
  refine ⟨resolvePair_invalid_lhs, fun t ht => ⟨resolvePair_invalid_rhs ht, fun b hb => ?_⟩⟩
  rw [← State.reg_fetched, ← effectiveAddress_eq]
  exact ⟨exec_str_memoryFault (s := s.fetched) ht hb, exec_str_storesBytes ht hb⟩

end Sys2Proof.Machine
end

section
/-! PROOF of the family '60_exceptions.md': what a fault leaves unchanged (R114, O32) and which fault a step raises
(R116, O33). `exec_fault_iff` says which fault an instruction raises; what is left is that `priorityFault`, read off the
bits of the word, names the same one. -/

namespace Sys2Proof

/-- Only opcodes 21 to 31 decode to no instruction, and the decoder answers the opcode itself (30_encoding.md R72). -/
theorem opcode_of_decode_unknownOpcode {w : InstrWord} {op : BitVec 5} (hd : decode w = .unknownOpcode op) :
    21 ≤ (opcode w).toNat ∧ op = opcode w := by
  unfold decode at hd
  split at hd <;> cases hd
  refine ⟨?_, rfl⟩
  simp only [imp_false] at *
  omega

end Sys2Proof

namespace Sys2Proof.Machine

/-! ### What a faulting instruction keeps -/

/-- An instruction that faults changes nothing but `run`. -/
theorem exec_eq_setRun_of_faulted {i : Instr} {s t : State} {e : ErrorKind} (h : exec i s = .next t)
    (hs : s.run = .running) (ht : t.run = .faulted e) : t = s.setRun (.faulted e) := by
  cases exec_cases h with
  | fault e' => cases ht; rfl
  | halt => cases ht
  | branch => simp [hs] at ht
  | register | latch | store => cases hs.symm.trans ht

/-- A fault that the execution of an instruction raises is no fetch fault. -/
theorem instrFault_ne_fetchFault (i : Instr) (s : State) (j : Word) : instrFault i s ≠ some (.fetchFault j) := by
  have hsel : selectorFault i.selectors ≠ some (.fetchFault j) := by simp [selectorFault]
  have hexec : executionFault i s ≠ some (.fetchFault j) := by
    cases i with
    | cmp | cset | ldr | str => simp [executionFault]
    | _ => exact fun h => nomatch h
  intro h
  rcases Option.or_eq_some_iff.mp h with h | ⟨-, h⟩
  · exact hsel h
  · exact hexec h

/-- Settles O32: a failed fetch faults in the old state, and every other fault is raised in the fetched state, whether
by the decoding or by the instruction. -/
theorem faultKeepsEverythingElse : Obligations.FaultKeepsEverythingElse := by
  intro s t e h ht
  rcases step_next_cases h with ⟨-, -, rfl⟩ | ⟨w, op, -, -, rfl⟩ | ⟨w, i, ⟨hr, -⟩, -, he⟩
  · cases ht
    exact ⟨fun _ => rfl, fun hno => absurd ⟨_, rfl⟩ hno⟩
  · cases ht
    exact ⟨fun ⟨_, hfetch⟩ => (nomatch hfetch), fun _ => rfl⟩
  · refine ⟨fun ⟨j, hfetch⟩ => ?_, fun _ => exec_eq_setRun_of_faulted (s := s.fetched) he hr ht⟩
    subst hfetch
    exact absurd ((exec_fault_iff (s := s.fetched) hr he _).mp ht) (instrFault_ne_fetchFault i s.fetched j)

/-! ### The register fields of each format (30_encoding.md R74) -/

section
variable {w : InstrWord}

theorem definedSelectors_formatH (h : opcode w = 0#5) : definedSelectors w = [] := by
  rw [definedSelectors, show w.extractLsb' 27 5 = _ from h]; rfl

theorem definedSelectors_formatM (h1 : 1 ≤ (opcode w).toNat) (h3 : (opcode w).toNat ≤ 3) :
    definedSelectors w = field w 22 5 :: if flag w 21 then [field w 16 5] else [] := if_pos ⟨h1, h3⟩

theorem definedSelectors_formatA (h : opcode w = 4#5) :
    definedSelectors w = field w 22 5 :: if flag w 19 then [field w 13 5] else [] := by
  rw [definedSelectors, show w.extractLsb' 27 5 = _ from h]; rfl

theorem definedSelectors_formatB (h : opcode w = 5#5) :
    definedSelectors w = if flag w 25 then [field w 20 5] else [] := by
  rw [definedSelectors, show w.extractLsb' 27 5 = _ from h]; rfl

theorem definedSelectors_formatL (h : opcode w = 6#5) : definedSelectors w = [field w 22 5] := by
  rw [definedSelectors, show w.extractLsb' 27 5 = _ from h]; rfl

theorem definedSelectors_formatR
    (h : (7 ≤ (opcode w).toNat ∧ (opcode w).toNat ≤ 9) ∨ (12 ≤ (opcode w).toNat ∧ (opcode w).toNat ≤ 17)) :
    definedSelectors w = field w 22 5 :: field w 17 5 :: if flag w 16 then [field w 11 5] else [] := by
  rw [definedSelectors, show w.extractLsb' 27 5 = opcode w from rfl]
  rw [if_neg (by omega), if_neg (by omega), if_neg (by omega), if_neg (by omega), if_pos h]
  rfl

theorem definedSelectors_formatC (h : opcode w = 18#5) :
    definedSelectors w = field w 17 5 :: field w 12 5 :: if flag w 22 then [field w 7 5] else [] := by
  rw [definedSelectors, show w.extractLsb' 27 5 = _ from h]; rfl

theorem definedSelectors_formatS (h : opcode w = 19#5 ∨ opcode w = 20#5) :
    definedSelectors w = [field w 19 5, field w 14 5] := by
  rcases h with h | h <;> rw [definedSelectors, show w.extractLsb' 27 5 = _ from h] <;> rfl

end

/-! ### The points of the fault order, over the bits of the word -/

/-- The reserved condition code and the memory bound (R116, points 5 and 6). -/
def lateFault (s : State) (w : InstrWord) : Option ErrorKind :=
  let n := 2 ^ (field w 25 2).toNat
  let addr := addressOf (s.x.toList.getD (field w 14 5).toNat 0) (field w 0 14)
  if opcode w = 18#5 ∧ 11 ≤ (field w 23 4).toNat then some (.unsupported 18#5)
  else if (opcode w = 19#5 ∨ opcode w = 20#5) ∧ 8 * s.cap < addr.toNat + n then some (.memoryFault addr n)
  else none

section
variable {s : State} {w : InstrWord}

/-- Point 1: the fetch. -/
theorem priorityFault_of_fetch_fails (hc : s.code[s.ip.toNat]? = none) :
    priorityFault s = some (.fetchFault s.ip) := by
  simp only [priorityFault, hc]

/-- Point 2: an unknown opcode. -/
theorem priorityFault_of_unknown_opcode (hw : s.code[s.ip.toNat]? = some w) (h : 21 ≤ (opcode w).toNat) :
    priorityFault s = some (.unknownOpcode (opcode w)) := by
  simp only [priorityFault, hw]
  exact if_pos h

/-- Point 3: DIV and MOD, whose opcodes alone decide. -/
theorem priorityFault_of_div_or_mod {op : BitVec 5} (hw : s.code[s.ip.toNat]? = some w) (h : opcode w = op)
    (hop : op = 10#5 ∨ op = 11#5) : priorityFault s = some (.unsupported op) := by
  subst h
  have hknown : ¬ 21 ≤ (opcode w).toNat := by rcases hop with h | h <;> rw [h] <;> decide
  simp only [priorityFault, hw]
  exact (if_neg hknown).trans (if_pos hop)

/-- Points 4 to 6: the selectors, then the rest. -/
theorem priorityFault_of_known_opcode (hw : s.code[s.ip.toNat]? = some w) (hknown : (opcode w).toNat < 21)
    (hdiv : (opcode w).toNat ≠ 10) (hmod : (opcode w).toNat ≠ 11) :
    priorityFault s = (selectorFault (definedSelectors w)).or (lateFault s w) := by
  have hno : ¬ (opcode w = 10#5 ∨ opcode w = 11#5) := by
    rintro (h | h)
    · exact hdiv (congrArg BitVec.toNat h)
    · exact hmod (congrArg BitVec.toNat h)
  simp only [priorityFault, hw]
  refine ((if_neg (Nat.not_le.mpr hknown)).trans (if_neg hno)).trans ?_
  rw [selectorFault]
  cases (definedSelectors w).find? fun sel => decide (16 ≤ sel.toNat) <;> rfl

/-- Below opcode 18 only a selector can fault, DIV and MOD aside. -/
theorem priorityFault_of_opcode_lt (hw : s.code[s.ip.toNat]? = some w)
    (h : (opcode w).toNat < 18 ∧ (opcode w).toNat ≠ 10 ∧ (opcode w).toNat ≠ 11) :
    priorityFault s = selectorFault (definedSelectors w) := by
  obtain ⟨hlt, hdiv, hmod⟩ := h
  have hop : ∀ k : BitVec 5, 18 ≤ k.toNat → opcode w ≠ k := fun k hk he => by rw [he] at hlt; omega
  have hlate : lateFault s w = none := by
    simp [lateFault, hop 18#5 (by decide), hop 19#5 (by decide), hop 20#5 (by decide)]
  rw [priorityFault_of_known_opcode hw (by omega) hdiv hmod, hlate, Option.or_none]

/-! ### `priorityFault` names the fault of the decoded instruction, format by format -/

theorem priorityFault_decodeH (hw : s.code[s.ip.toNat]? = some w) (h : opcode w = 0#5) :
    priorityFault s = instrFault (decodeH w) s.fetched := by
  rw [priorityFault_of_opcode_lt hw (by rw [h]; decide), definedSelectors_formatH h]
  unfold decodeH
  split <;> rfl

theorem priorityFault_decodeM {immForm : Sel → BitVec 21 → Instr} {regForm : Sel → Sel → Instr}
    (hw : s.code[s.ip.toNat]? = some w) (h1 : 1 ≤ (opcode w).toNat) (h3 : (opcode w).toNat ≤ 3)
    (himm : ∀ dst imm, instrFault (immForm dst imm) s.fetched = selectorFault [dst])
    (hreg : ∀ dst src, instrFault (regForm dst src) s.fetched = selectorFault [dst, src]) :
    priorityFault s = instrFault (decodeM immForm regForm w) s.fetched := by
  rw [priorityFault_of_opcode_lt hw (by omega), definedSelectors_formatM h1 h3]
  unfold decodeM
  cases flag w 21
  · exact (himm _ _).symm
  · exact (hreg _ _).symm

theorem priorityFault_decodeA (hw : s.code[s.ip.toNat]? = some w) (h : opcode w = 4#5) :
    priorityFault s = instrFault (decodeA w) s.fetched := by
  rw [priorityFault_of_opcode_lt hw (by rw [h]; decide), definedSelectors_formatA h]
  unfold decodeA
  cases flag w 19 <;> exact Option.or_none.symm

theorem priorityFault_decodeB (hw : s.code[s.ip.toNat]? = some w) (h : opcode w = 5#5) :
    priorityFault s = instrFault (decodeB w) s.fetched := by
  rw [priorityFault_of_opcode_lt hw (by rw [h]; decide), definedSelectors_formatB h]
  unfold decodeB
  cases flag w 25 <;> exact Option.or_none.symm

theorem priorityFault_decodeL (hw : s.code[s.ip.toNat]? = some w) (h : opcode w = 6#5) :
    priorityFault s = instrFault (decodeL w) s.fetched := by
  rw [priorityFault_of_opcode_lt hw (by rw [h]; decide), definedSelectors_formatL h]
  exact Option.or_none.symm

theorem priorityFault_decodeR {immForm : Sel → Sel → BitVec 16 → Instr} {regForm : Sel → Sel → Sel → Instr}
    (hw : s.code[s.ip.toNat]? = some w)
    (h : (7 ≤ (opcode w).toNat ∧ (opcode w).toNat ≤ 9) ∨ (12 ≤ (opcode w).toNat ∧ (opcode w).toNat ≤ 17))
    (himm : ∀ dst src imm, instrFault (immForm dst src imm) s.fetched = selectorFault [dst, src])
    (hreg : ∀ dst src src2, instrFault (regForm dst src src2) s.fetched = selectorFault [dst, src, src2]) :
    priorityFault s = instrFault (decodeR immForm regForm w) s.fetched := by
  rw [priorityFault_of_opcode_lt hw (by omega), definedSelectors_formatR h]
  unfold decodeR
  cases flag w 16
  · exact (himm _ _ _).symm
  · exact (hreg _ _ _).symm

theorem priorityFault_decodeC (hw : s.code[s.ip.toNat]? = some w) (h : opcode w = 18#5) :
    priorityFault s = instrFault (decodeC w) s.fetched := by
  have hlate : lateFault s w = if 11 ≤ (field w 23 4).toNat then some (.unsupported 18#5) else none := by
    simp [lateFault, h]
  rw [priorityFault_of_known_opcode hw (by simp [h]) (by simp [h]) (by simp [h]), definedSelectors_formatC h, hlate]
  unfold decodeC
  cases flag w 22 <;> rfl

/-- LDR and STR resolve the same two selectors and meet the same bound. -/
theorem priorityFault_decodeS (hw : s.code[s.ip.toNat]? = some w) (h : opcode w = 19#5 ∨ opcode w = 20#5) :
    priorityFault s = instrFault (decodeLdr w) s.fetched ∧ priorityFault s = instrFault (decodeStr w) s.fetched := by
  have hop : (opcode w).toNat = 19 ∨ (opcode w).toNat = 20 := h.imp (congrArg BitVec.toNat) (congrArg BitVec.toNat)
  have hlate : executionFault (decodeLdr w) s.fetched = lateFault s w := by
    have hne : opcode w ≠ 18#5 := by rcases h with h | h <;> rw [h] <;> decide
    simp only [lateFault, decodeLdr, executionFault, sizeBytes_ofField, h, hne, true_and, false_and, if_false]
    rfl
  rw [priorityFault_of_known_opcode hw (by omega) (by omega) (by omega), definedSelectors_formatS h, ← hlate]
  exact ⟨rfl, rfl⟩

/-- The fault that the bits of a fetched word name is the one its instruction raises. -/
theorem priorityFault_of_decode_instr {i : Instr} (hw : s.code[s.ip.toNat]? = some w) (hd : decode w = .instr i) :
    priorityFault s = instrFault i s.fetched := by
  unfold decode at hd
  split at hd <;> cases hd <;> rename_i hop
  case h_1 => exact priorityFault_decodeH hw (BitVec.eq_of_toNat_eq hop)
  case h_2 | h_3 | h_4 =>
    exact priorityFault_decodeM hw (by omega) (by omega) (fun _ _ => Option.or_none) (fun _ _ => Option.or_none)
  case h_5 => exact priorityFault_decodeA hw (BitVec.eq_of_toNat_eq hop)
  case h_6 => exact priorityFault_decodeB hw (BitVec.eq_of_toNat_eq hop)
  case h_7 => exact priorityFault_decodeL hw (BitVec.eq_of_toNat_eq hop)
  case h_11 => exact priorityFault_of_div_or_mod hw (BitVec.eq_of_toNat_eq hop) (.inl rfl)
  case h_12 => exact priorityFault_of_div_or_mod hw (BitVec.eq_of_toNat_eq hop) (.inr rfl)
  case h_19 => exact priorityFault_decodeC hw (BitVec.eq_of_toNat_eq hop)
  case h_20 => exact (priorityFault_decodeS hw (.inl (BitVec.eq_of_toNat_eq hop))).1
  case h_21 => exact (priorityFault_decodeS hw (.inr (BitVec.eq_of_toNat_eq hop))).2
  all_goals
    exact priorityFault_decodeR hw (by omega) (fun _ _ _ => Option.or_none) (fun _ _ _ => Option.or_none)

end

/-- Settles O33: a failed fetch and an unknown opcode are the first points of the order, and an instruction raises the
fault that the bits of its word name. -/
theorem firstApplicableFaultIsRaised : Obligations.FirstApplicableFaultIsRaised := by
  intro s t h e
  rcases step_next_cases h with ⟨-, hc, rfl⟩ | ⟨w, op, ⟨-, hw⟩, hd, rfl⟩ | ⟨w, i, ⟨hr, hw⟩, hd, he⟩
  · rw [priorityFault_of_fetch_fails hc, State.setRun_run, RunState.faulted.injEq, Option.some.injEq]
  · obtain ⟨hop, rfl⟩ := opcode_of_decode_unknownOpcode hd
    rw [priorityFault_of_unknown_opcode hw hop, State.setRun_run, RunState.faulted.injEq, Option.some.injEq]
  · rw [priorityFault_of_decode_instr hw hd]
    exact exec_fault_iff (s := s.fetched) hr he e

end Sys2Proof.Machine
end

section
/-! PROOF about the encoding (30_encoding.md R61 to R71): decoding undoes encoding (O1), the decoder and the opcode
table agree (O3), and the spec's example words (O5). -/

namespace Sys2Proof

/-! ### Decoding undoes encoding, format by format -/

/-- Opcode 0 decodes to the HALT family (R61). -/
theorem decode_of_opcode_zero {w : InstrWord} (h : opcode w = 0#5) : decode w = .instr (decodeH w) := by
  simp [decode, h]

section
variable {op : BitVec 5}

section
variable {immForm : Sel → BitVec 21 → Instr} {regForm : Sel → Sel → Instr}

theorem decode_encodeMImm (hdec : ∀ {w}, opcode w = op → decode w = .instr (decodeM immForm regForm w)) (dst : Sel)
    (imm : BitVec 21) : decode (encodeMImm op dst imm) = .instr (immForm dst imm) := by
  obtain ⟨hop, hdst, hm, himm⟩ := fields_encodeMImm op dst imm
  simp [hdec hop, decodeM, hdst, hm, himm]

theorem decode_encodeMReg (hdec : ∀ {w}, opcode w = op → decode w = .instr (decodeM immForm regForm w))
    (dst src : Sel) : decode (encodeMReg op dst src) = .instr (regForm dst src) := by
  obtain ⟨hop, hdst, hm, hsrc⟩ := fields_encodeMReg op dst src
  simp [hdec hop, decodeM, hdst, hm, hsrc]

end

section
variable {immForm : Sel → Sel → BitVec 16 → Instr} {regForm : Sel → Sel → Sel → Instr}

theorem decode_encodeRImm (hdec : ∀ {w}, opcode w = op → decode w = .instr (decodeR immForm regForm w))
    (dst src : Sel) (imm : BitVec 16) : decode (encodeRImm op dst src imm) = .instr (immForm dst src imm) := by
  obtain ⟨hop, hdst, hsrc, hm, himm⟩ := fields_encodeRImm op dst src imm
  simp [hdec hop, decodeR, hdst, hsrc, hm, himm]

theorem decode_encodeRReg (hdec : ∀ {w}, opcode w = op → decode w = .instr (decodeR immForm regForm w))
    (dst src src2 : Sel) : decode (encodeRReg op dst src src2) = .instr (regForm dst src src2) := by
  obtain ⟨hop, hdst, hsrc, hm, hsrc2⟩ := fields_encodeRReg op dst src src2
  simp [hdec hop, decodeR, hdst, hsrc, hm, hsrc2]

end
end

theorem decode_encodeAImm (dst : Sel) (quad : BitVec 2) (imm : BitVec 18) :
    decode (encodeAImm dst quad imm) = .instr (.mvaImm dst quad imm) := by
  obtain ⟨hop, hdst, hquad, hm, himm⟩ := fields_encodeAImm dst quad imm
  simp [decode_of_opcode_four hop, decodeA, hdst, hquad, hm, himm]

theorem decode_encodeAReg (dst : Sel) (quad : BitVec 2) (src : Sel) :
    decode (encodeAReg dst quad src) = .instr (.mvaReg dst quad src) := by
  obtain ⟨hop, hdst, hquad, hm, hsrc⟩ := fields_encodeAReg dst quad src
  simp [decode_of_opcode_four hop, decodeA, hdst, hquad, hm, hsrc]

theorem decode_encodeBImm (link : Bool) (imm : BitVec 25) :
    decode (encodeBImm link imm) = .instr (.brImm link imm) := by
  obtain ⟨hop, hlink, hm, himm⟩ := fields_encodeBImm link imm
  rw [decode_of_opcode_five hop, decodeB_imm hm, hlink, himm]

theorem decode_encodeBReg (link : Bool) (reg : Sel) : decode (encodeBReg link reg) = .instr (.brReg link reg) := by
  obtain ⟨hop, hlink, hm, hreg⟩ := fields_encodeBReg link reg
  rw [decode_of_opcode_five hop, decodeB_reg hm, hlink, hreg]

theorem decode_encodeL (dst : Sel) (imm : BitVec 22) : decode (encodeL dst imm) = .instr (.lea dst imm) := by
  obtain ⟨hop, hdst, himm⟩ := fields_encodeL dst imm
  rw [decode_of_opcode_six hop, decodeL, hdst, himm]

theorem decode_encodeCmp (cc : BitVec 4) (lhs rhs : Sel) :
    decode (encodeCmp cc lhs rhs) = .instr (.cmp cc lhs rhs) := by
  obtain ⟨hop, hcc, hm, hlhs, hrhs⟩ := fields_encodeCmp cc lhs rhs
  rw [decode_of_opcode_eighteen hop, decodeC_cmp hm, hcc, hlhs, hrhs]

theorem decode_encodeCset (cc : BitVec 4) (lhs rhs dst : Sel) :
    decode (encodeCset cc lhs rhs dst) = .instr (.cset cc lhs rhs dst) := by
  obtain ⟨hop, hcc, hm, hlhs, hrhs, hdst⟩ := fields_encodeCset cc lhs rhs dst
  rw [decode_of_opcode_eighteen hop, decodeC_cset hm, hcc, hlhs, hrhs, hdst]

theorem decode_encodeS_ldr (ds : DataSize) (sx : Bool) (rt base : Sel) (off : BitVec 14) :
    decode (encodeS 19#5 ds sx rt base off) = .instr (.ldr ds sx rt base off) := by
  obtain ⟨hop, hds, hsx, hrt, hbase, hoff⟩ := fields_encodeS 19#5 ds sx rt base off
  rw [decode_of_opcode_nineteen hop, decodeLdr, hds, DataSize.ofField_toField, hsx, hrt, hbase, hoff]

theorem decode_encodeS_str (ds : DataSize) (rt base : Sel) (off : BitVec 14) :
    decode (encodeS 20#5 ds false rt base off) = .instr (.str ds rt base off) := by
  obtain ⟨hop, hds, -, hrt, hbase, hoff⟩ := fields_encodeS 20#5 ds false rt base off
  rw [decode_of_opcode_twenty hop, decodeStr, hds, DataSize.ofField_toField, hrt, hbase, hoff]

/-- Decoding undoes encoding. The HALT family, DIV and MOD have one word each; every other form has the lemma of its
format. -/
theorem decode_encode (i : Instr) : decode (encode i) = .instr i := by
  cases i with
  | halt | ret | syscall | call | div | mod => decide
  | mvnotImm dst imm => exact decode_encodeMImm decode_of_opcode_one dst imm
  | mvnotReg dst src => exact decode_encodeMReg decode_of_opcode_one dst src
  | mvnegImm dst imm => exact decode_encodeMImm decode_of_opcode_two dst imm
  | mvnegReg dst src => exact decode_encodeMReg decode_of_opcode_two dst src
  | movImm dst imm => exact decode_encodeMImm decode_of_opcode_three dst imm
  | movReg dst src => exact decode_encodeMReg decode_of_opcode_three dst src
  | mvaImm dst quad imm => exact decode_encodeAImm dst quad imm
  | mvaReg dst quad src => exact decode_encodeAReg dst quad src
  | brImm link imm => exact decode_encodeBImm link imm
  | brReg link reg => exact decode_encodeBReg link reg
  | lea dst imm => exact decode_encodeL dst imm
  | addImm dst src imm => exact decode_encodeRImm decode_of_opcode_seven dst src imm
  | addReg dst src src2 => exact decode_encodeRReg decode_of_opcode_seven dst src src2
  | subImm dst src imm => exact decode_encodeRImm decode_of_opcode_eight dst src imm
  | subReg dst src src2 => exact decode_encodeRReg decode_of_opcode_eight dst src src2
  | multImm dst src imm => exact decode_encodeRImm decode_of_opcode_nine dst src imm
  | multReg dst src src2 => exact decode_encodeRReg decode_of_opcode_nine dst src src2
  | andImm dst src imm => exact decode_encodeRImm decode_of_opcode_twelve dst src imm
  | andReg dst src src2 => exact decode_encodeRReg decode_of_opcode_twelve dst src src2
  | orImm dst src imm => exact decode_encodeRImm decode_of_opcode_thirteen dst src imm
  | orReg dst src src2 => exact decode_encodeRReg decode_of_opcode_thirteen dst src src2
  | xorImm dst src imm => exact decode_encodeRImm decode_of_opcode_fourteen dst src imm
  | xorReg dst src src2 => exact decode_encodeRReg decode_of_opcode_fourteen dst src src2
  | lslImm dst src imm => exact decode_encodeRImm decode_of_opcode_fifteen dst src imm
  | lslReg dst src src2 => exact decode_encodeRReg decode_of_opcode_fifteen dst src src2
  | lsrImm dst src imm => exact decode_encodeRImm decode_of_opcode_sixteen dst src imm
  | lsrReg dst src src2 => exact decode_encodeRReg decode_of_opcode_sixteen dst src src2
  | asrImm dst src imm => exact decode_encodeRImm decode_of_opcode_seventeen dst src imm
  | asrReg dst src src2 => exact decode_encodeRReg decode_of_opcode_seventeen dst src src2
  | cmp cc lhs rhs => exact decode_encodeCmp cc lhs rhs
  | cset cc lhs rhs dst => exact decode_encodeCset cc lhs rhs dst
  | ldr ds sx rt base off => exact decode_encodeS_ldr ds sx rt base off
  | str ds rt base off => exact decode_encodeS_str ds rt base off

/-- Settles O1: decoding undoes encoding, format by format. -/
theorem decodeOfEncodeIsIdentity : Obligations.DecodeOfEncodeIsIdentity := decode_encode

/-! ### The row of the opcode table that a word meets -/

/-- The mask of the table's rows with this opcode: the opcode and the bits that choose the form (R61 to R70). -/
def rowMask (op : Nat) : InstrWord :=
  match op with
  | 0 => 0xFE000000#32                                  -- w[26:25]
  | 1 | 2 | 3 => 0xF8200000#32                          -- w[21]
  | 4 => 0xF8080000#32                                  -- w[19]
  | 5 => 0xFA000000#32                                  -- w[25]
  | 6 | 10 | 11 | 19 | 20 => 0xF8000000#32
  | 18 => 0xF8400000#32                                 -- w[22]
  | _ => 0xF8010000#32                                  -- w[16]

/-- The row a word meets, read off the word: its bits under the mask of its opcode. -/
def rowOfWord (w : InstrWord) : InstrWord × InstrWord :=
  (w &&& rowMask (opcode w).toNat, rowMask (opcode w).toNat)

/-- The row of a form that bit `k` of the word chooses, with `m` that bit's value. -/
def formRow (op k : Nat) (m : Bool) : InstrWord × InstrWord :=
  ((BitVec.ofNat 5 op ++ 0#27 : BitVec 32) ||| (if m then BitVec.twoPow 32 k else 0#32),
    0xF8000000#32 ||| BitVec.twoPow 32 k)

/-- The bits of a word under its opcode alone. -/
theorem and_opcodeMask (w : InstrWord) : w &&& 0xF8000000#32 = (opcode w ++ 0#27 : BitVec 32) := by
  refine BitVec.eq_of_getLsbD_eq fun k hk => ?_
  rw [BitVec.getLsbD_and, BitVec.getLsbD_append, opcode, getLsbD_field]
  interval_cases k <;> simp

/-- The bits of a word under its opcode and one form bit. -/
theorem and_opcodeMask_or_bit (w : InstrWord) (k : Nat) :
    w &&& (0xF8000000#32 ||| BitVec.twoPow 32 k) =
      (opcode w ++ 0#27 : BitVec 32) ||| (if flag w k then BitVec.twoPow 32 k else 0#32) := by
  rw [← and_opcodeMask, flag, ← BitVec.and_twoPow]
  exact BitVec.and_or_distrib_left

/-- The bits of a word under its opcode and the sub-kind of the HALT family. -/
theorem and_haltMask (w : InstrWord) :
    w &&& 0xFE000000#32 = (opcode w ++ field w 25 2 ++ 0#25 : BitVec 32) := by
  refine BitVec.eq_of_getLsbD_eq fun k hk => ?_
  rw [BitVec.getLsbD_and, BitVec.getLsbD_append, BitVec.getLsbD_append, opcode, getLsbD_field, getLsbD_field]
  interval_cases k <;> simp

section
variable {w : InstrWord} {op : Nat}

theorem rowOfWord_of_opcode (hop : (opcode w).toNat = op) (hmask : rowMask op = 0xF8000000#32) :
    rowOfWord w = ((BitVec.ofNat 5 op ++ 0#27 : BitVec 32), 0xF8000000#32) := by
  subst hop
  rw [rowOfWord, hmask, and_opcodeMask, BitVec.ofNat_toNat, BitVec.setWidth_eq]

theorem rowOfWord_of_form {k : Nat} (hop : (opcode w).toNat = op)
    (hmask : rowMask op = 0xF8000000#32 ||| BitVec.twoPow 32 k) : rowOfWord w = formRow op k (flag w k) := by
  subst hop
  rw [rowOfWord, hmask, and_opcodeMask_or_bit, formRow, BitVec.ofNat_toNat, BitVec.setWidth_eq]

/-! ### Each format decodes to a form of the row the word meets -/

theorem tableBits_decodeH (hop : (opcode w).toNat = 0) : (decodeH w).tableBits = rowOfWord w := by
  have hop' : opcode w = 0#5 := BitVec.eq_of_toNat_eq hop
  rw [rowOfWord, hop, rowMask, and_haltMask, hop', decodeH]
  generalize field w 25 2 = kind
  revert kind
  decide

theorem tableBits_decodeM {immForm : Sel → BitVec 21 → Instr} {regForm : Sel → Sel → Instr}
    (hop : (opcode w).toNat = op) (hmask : rowMask op = 0xF8000000#32 ||| BitVec.twoPow 32 21)
    (himm : ∀ dst imm, (immForm dst imm).tableBits = formRow op 21 false)
    (hreg : ∀ dst src, (regForm dst src).tableBits = formRow op 21 true) :
    (decodeM immForm regForm w).tableBits = rowOfWord w := by
  rw [rowOfWord_of_form hop hmask, decodeM]
  cases flag w 21
  · exact himm _ _
  · exact hreg _ _

theorem tableBits_decodeA (hop : (opcode w).toNat = 4) : (decodeA w).tableBits = rowOfWord w := by
  rw [rowOfWord_of_form (k := 19) hop rfl, decodeA]
  cases flag w 19 <;> rfl

theorem tableBits_decodeB (hop : (opcode w).toNat = 5) : (decodeB w).tableBits = rowOfWord w := by
  rw [rowOfWord_of_form (k := 25) hop rfl, decodeB]
  cases flag w 25 <;> rfl

theorem tableBits_decodeR {immForm : Sel → Sel → BitVec 16 → Instr} {regForm : Sel → Sel → Sel → Instr}
    (hop : (opcode w).toNat = op) (hmask : rowMask op = 0xF8000000#32 ||| BitVec.twoPow 32 16)
    (himm : ∀ dst src imm, (immForm dst src imm).tableBits = formRow op 16 false)
    (hreg : ∀ dst src src2, (regForm dst src src2).tableBits = formRow op 16 true) :
    (decodeR immForm regForm w).tableBits = rowOfWord w := by
  rw [rowOfWord_of_form hop hmask, decodeR]
  cases flag w 16
  · exact himm _ _ _
  · exact hreg _ _ _

theorem tableBits_decodeC (hop : (opcode w).toNat = 18) : (decodeC w).tableBits = rowOfWord w := by
  rw [rowOfWord_of_form (k := 22) hop rfl, decodeC]
  cases flag w 22 <;> rfl

end

/-- The row of the decoded instruction is the one the word meets. -/
theorem tableBits_of_decode {w : InstrWord} {i : Instr} (hd : decode w = .instr i) : i.tableBits = rowOfWord w := by
  unfold decode at hd
  split at hd <;> cases hd <;> rename_i hop
  case h_1 => exact tableBits_decodeH hop
  case h_2 | h_3 | h_4 => exact tableBits_decodeM hop rfl (fun _ _ => rfl) (fun _ _ => rfl)
  case h_5 => exact tableBits_decodeA hop
  case h_6 => exact tableBits_decodeB hop
  case h_7 | h_11 | h_12 | h_20 | h_21 => exact (rowOfWord_of_opcode hop rfl).symm  -- LEA, DIV, MOD, LDR, STR
  case h_19 => exact tableBits_decodeC hop
  all_goals exact tableBits_decodeR hop rfl (fun _ _ _ => rfl) (fun _ _ _ => rfl)

/-! ### What an instruction's row says of the words that decode to it -/

/-- A field that a mask covers is read through it. -/
theorem field_and_of_covered {m : InstrWord} {lo n : Nat} (hm : field m lo n = BitVec.allOnes n) (w : InstrWord) :
    field (w &&& m) lo n = field w lo n := by
  simp only [field, BitVec.extractLsb'_and] at hm ⊢
  rw [hm, BitVec.and_allOnes]

/-- Every row's mask covers the opcode. -/
theorem opcode_rowMask (op : Nat) : opcode (rowMask op) = BitVec.allOnes 5 := by
  unfold rowMask
  split <;> rfl

/-- A word that decodes to an instruction has the opcode of the `match` of its row. -/
theorem opcode_of_decode {w m : InstrWord} {i : Instr} (hd : decode w = .instr i) (hm : i.tableBits.1 = m) :
    opcode w = opcode m := by
  rw [← hm, tableBits_of_decode hd]
  exact (field_and_of_covered (opcode_rowMask _) w).symm

/-- A word with a known opcode decodes to an instruction. -/
theorem decode_of_known_opcode {w : InstrWord} (h : (opcode w).toNat < 21) : ∃ i, decode w = .instr i := by
  cases hd : decode w with
  | instr i => exact ⟨i, rfl⟩
  | unknownOpcode op => exact absurd (opcode_of_decode_unknownOpcode hd).1 (Nat.not_le.mpr h)

/-- Only known opcodes decode to an instruction. -/
theorem opcode_lt_of_decode {w : InstrWord} {i : Instr} (hd : decode w = .instr i) : (opcode w).toNat < 21 := by
  by_contra h
  cases (decode_of_unknown_opcode (Nat.not_lt.mp h)).symm.trans hd

/-- Settles O3: the decoded instruction's row is the one its word meets; and a word of the row of `i` has the opcode and
the form bits of the word that `encode` gives `i`, so that both meet one row. -/
theorem decoderAgreesWithOpcodeTable : Obligations.DecoderAgreesWithOpcodeTable := by
  refine ⟨fun w i hd => by rw [tableBits_of_decode hd]; rfl, fun w i hrow => ?_⟩
  have hi : i.tableBits = rowOfWord (encode i) := tableBits_of_decode (decode_encode i)
  rw [hi] at hrow
  have hop : opcode w = opcode (encode i) := by
    rw [opcode, ← field_and_of_covered (opcode_rowMask (opcode (encode i)).toNat) w]
    exact (congrArg opcode hrow).trans (field_and_of_covered (opcode_rowMask _) _)
  obtain ⟨j, hj⟩ := decode_of_known_opcode (w := w) (hop ▸ opcode_lt_of_decode (decode_encode i))
  refine ⟨j, hj, ?_⟩
  rw [tableBits_of_decode hj, hi]
  exact Prod.ext (by rw [rowOfWord, hop]; exact hrow) (by rw [rowOfWord, hop]; rfl)

/-! ### The spec's example words -/

/-- Settles O5: the nine words are literals, and the decoder runs on them. -/
theorem specExampleWordsDecode : Obligations.SpecExampleWordsDecode := by
  unfold Obligations.SpecExampleWordsDecode
  decide

end Sys2Proof
end

section
/-! PROOF about the step and the run: which states have a step (10_state.md R27: O7, O9), how a run ends
(40_halt_family.md, O10) and that it then stays as it is (R28, O41). -/

namespace Sys2Proof.Machine

/-! ### When there is a step (10_state.md R27) -/

/-- Settles O7: the step fetches, advances, decodes and dispatches. -/
theorem stepRunsDecodedInstruction : Obligations.StepRunsDecodedInstruction :=
  fun _ _ _ hw hd => step_of_decode_instr hw hd

theorem step_of_not_running {s : State} (h : s.run ≠ .running) : step s = .fault .notRunning := by
  rcases step_cases s with ⟨-, hs⟩ | ⟨hr, -⟩ | ⟨_, _, hr, -⟩ | ⟨_, _, hr, -⟩
  · exact hs
  all_goals exact absurd hr h

theorem step_of_running {s : State} (h : s.run = .running) : ∃ t, step s = .next t := by
  rcases step_cases s with ⟨hr, -⟩ | ⟨-, -, hs⟩ | ⟨_, _, -, -, -, hs⟩ | ⟨_, i, -, -, -, hs⟩
  · exact absurd h hr
  · exact ⟨_, hs⟩
  · exact ⟨_, hs⟩
  · rw [hs]
    exact exec_next i (advanceIp s)

/-- Settles O9: a running machine fetches, faults or executes, each to a next state; any other has no step. -/
theorem stepIsEnabledExactlyWhileRunning : Obligations.StepIsEnabledExactlyWhileRunning :=
  fun _ => ⟨step_of_running, step_of_not_running⟩

/-! ### The HALT family (40_halt_family.md R81 to R85) -/

/-- The sub-kind `w[26:25]` stands for (30_encoding.md R61). -/
def haltKindOfField (kind : BitVec 2) : HaltKind :=
  match kind.toNat with
  | 0 => .halt
  | 1 => .ret
  | 2 => .syscall
  | _ => .call

theorem exec_decodeH (w : InstrWord) (s : State) :
    exec (decodeH w) s = haltWith (haltKindOfField (field w 25 2)) s := by
  unfold decodeH haltKindOfField
  generalize (field w 25 2).toNat = kind
  match kind with
  | 0 | 1 | 2 | _ + 3 => rfl

/-- A step of a word with opcode 0 halts with the sub-kind of its field, whatever the other bits hold. -/
theorem step_of_opcode_zero {s : State} {w : InstrWord} (hw : s.aboutToRun w) (hop : opcode w = 0#5) :
    haltsFrom s.fetched (haltKindOfField (field w 25 2)) (step s) := by
  rw [step_of_decode_instr hw (decode_of_opcode_zero hop), exec_decodeH]
  rfl

/-- Settles O10: opcode 0 halts with the field's sub-kind, and a halted machine has no step. -/
theorem haltFamilyEndsTheRun : Obligations.HaltFamilyEndsTheRun := by
  refine ⟨fun s w hw hop => ?_, fun s => ⟨rfl, rfl, rfl, rfl⟩, fun _ => rfl⟩
  have hstep := step_of_opcode_zero hw hop
  have hkind : ∀ kind, field w 25 2 = kind → haltsFrom s.fetched (haltKindOfField kind) (step s) := by
    rintro kind rfl
    exact hstep
  exact ⟨hkind 0#2, hkind 1#2, hkind 2#2, hkind 3#2, _, hstep, step_of_not_running (fun h => nomatch h)⟩

/-! ### Runs (R28) -/

theorem runFor_of_not_running (n : Nat) {s : State} (h : s.run ≠ .running) : runFor n s = s := by
  cases n with
  | zero => rfl
  | succ n => rw [runFor, step_of_not_running h]

theorem runFor_succ_of_step {n : Nat} {s t : State} (h : step s = .next t) : runFor (n + 1) s = runFor n t := by
  rw [runFor, h]

/-- A run that is over after `n` steps has the same state after any further ones. -/
theorem runFor_of_run_over {n m : Nat} {s : State} (h : (runFor n s).run ≠ .running) (hnm : n ≤ m) :
    runFor m s = runFor n s := by
  induction n generalizing m s with
  | zero => exact runFor_of_not_running m h
  | succ n ih =>
    obtain ⟨m, rfl⟩ : ∃ k, m = k + 1 := ⟨m - 1, by omega⟩
    by_cases hs : s.run = .running
    · obtain ⟨t, ht⟩ := step_of_running hs
      rw [runFor_succ_of_step ht] at h ⊢
      rw [runFor_succ_of_step ht]
      exact ih h (Nat.le_of_succ_le_succ hnm)
    · rw [runFor_of_not_running _ hs, runFor_of_not_running _ hs]

/-- Settles O41: a result means that the run is over. -/
theorem terminalStatesAreFinal : Obligations.TerminalStatesAreFinal := by
  intro n m s r hr hnm
  have hover : (runFor n s).run ≠ .running := fun h => by rw [runResult, h] at hr; cases hr
  have heq := runFor_of_run_over hover hnm
  exact ⟨by rw [runResult, heq]; exact hr, heq⟩

end Sys2Proof.Machine
end

section
/-! PROOF that every form completes with its result and its frame, in any state (O24 to O28): each completion is an
outcome proved once of `exec` or of the operation it calls, at the valid selectors and the form's operand. -/

namespace Sys2Proof.Machine

/-- The immediate operand is the signed value of its field (30_encoding.md R60, R69). -/
theorem operand_imm_eq_signedValue {n : Nat} (h0 : 0 < n) (hn : n ≤ 64) (imm : BitVec n) (s : State) :
    operand (.imm imm) s = .ok (signedValue imm) := congrArg Except.ok (sext_eq_ofInt imm h0 hn)

/-! ### The move forms and LEA -/

section
variable {s : State} {dst : Sel} {d : Fin 16} {v : Word}

/-- A move of an operand writes what the function gives. -/
theorem complete_moveOp {f : Word → Word} {o : Operand 21} (hd : dst.toNat = d.val) (ho : operand o s = .ok v) :
    writesReg s d (f v) (complete s (moveOp f dst o s)) := operandToReg_operand_ok hd ho

/-- A move-accumulate of an operand ORs it, times its power of two, into the destination. -/
theorem complete_accumulateOp {o : Operand 18} (quad : BitVec 2) (hd : dst.toNat = d.val)
    (ho : operand o s = .ok v) :
    writesReg s d (s.reg d ||| BitVec.ofNat 64 (v.toNat * 2 ^ (16 * quad.toNat)))
      (complete s (accumulateOp dst quad o s)) := by
  rw [← shiftLeft_eq_ofNat, accumulateOp_eq_operandToReg]
  exact operandToReg_operand_ok (g := fun d v => s.reg d ||| v <<< (16 * quad.toNat)) hd ho

/-- MVNOT of an operand writes `2^64 - 1 - u(v)`. -/
theorem complete_not {o : Operand 21} (hd : dst.toNat = d.val) (ho : operand o s = .ok v) :
    writesReg s d (BitVec.ofNat 64 (2 ^ 64 - 1 - v.toNat)) (complete s (moveOp (fun v => ~~~v) dst o s)) := by
  rw [← complement_eq_ofNat]
  exact complete_moveOp (f := fun v => ~~~v) hd ho

/-- MVNEG of an operand writes `-s(v)`, modulo 2^64. -/
theorem complete_neg {o : Operand 21} (hd : dst.toNat = d.val) (ho : operand o s = .ok v) :
    writesReg s d (BitVec.ofInt 64 (0 - v.toInt)) (complete s (moveOp (fun v => 0 - v) dst o s)) := by
  rw [← zero_sub_eq_ofInt]
  exact complete_moveOp (f := fun v => 0 - v) hd ho

end

/-- Sign extension keeps the signed value of a field. -/
theorem toInt_signedValue {n : Nat} (h0 : 0 < n) (hn : n ≤ 64) (imm : BitVec n) :
    (signedValue imm).toInt = imm.toInt := by
  rw [signedValue, ← sext_eq_ofInt imm h0 hn]
  exact extenderKeepsTheValueOfTheField.2 n imm h0 hn

/-- Settles O24: the form's operand is the signed immediate or the register, and the operation's result is the
form's. -/
theorem moveAndLeaFormsComplete : Obligations.MoveAndLeaFormsComplete := by
  intro s dst d hd
  have himm (imm : BitVec 21) : operand (.imm imm) s = .ok (signedValue imm) :=
    operand_imm_eq_signedValue (by decide) (by decide) imm s
  refine ⟨fun imm => complete_not hd (himm imm), fun imm => ?_, fun imm => complete_moveOp hd (himm imm),
    fun quad imm => complete_accumulateOp quad hd (operand_imm_eq_signedValue (by decide) (by decide) imm s),
    fun imm => exec_lea_writesReg hd imm, fun src r hr => ?_⟩
  · rw [← toInt_signedValue (by decide) (by decide) imm]
    exact complete_neg hd (himm imm)
  · exact ⟨complete_not hd (operand_reg_valid s hr), complete_neg hd (operand_reg_valid s hr),
      complete_moveOp hd (operand_reg_valid s hr),
      fun quad => complete_accumulateOp quad hd (operand_reg_valid s hr)⟩

/-! ### The format R forms -/

/-- The two forms of a format R operation complete with any relation `P` that the computed function satisfies. -/
theorem aluFormsComplete_of_exec {P : Word → Word → Word → Prop} {f : Word → Word → Word}
    {immForm : Sel → Sel → BitVec 16 → Instr} {regForm : Sel → Sel → Sel → Instr} (hP : ∀ a b, P a b (f a b))
    (himm : ∀ dst src imm t, exec (immForm dst src imm) t = complete t (aluOp f dst src (.imm imm) t))
    (hreg : ∀ dst src src2 t, exec (regForm dst src src2) t = complete t (aluOp f dst src (.reg src2) t)) :
    aluFormsComplete P immForm regForm := by
  intro s dst src d a hd ha
  refine ⟨fun imm => ⟨_, hP _ _, ?_⟩, fun src2 b hb => ⟨_, hP _ _, ?_⟩⟩
  · rw [himm]
    exact aluOp_operand_ok hd ha (operand_imm_eq_signedValue (by decide) (by decide) imm s)
  · rw [hreg]
    exact aluOp_operand_ok hd ha (operand_reg_valid s hb)

/-- Settles O25: the nine operations are format R operations, and each word operation satisfies its relation. -/
theorem aluFormsComplete_all : Obligations.AluFormsComplete :=
  ⟨aluFormsComplete_of_exec sumOf_add (fun _ _ _ _ => rfl) (fun _ _ _ _ => rfl),
    aluFormsComplete_of_exec differenceOf_sub (fun _ _ _ _ => rfl) (fun _ _ _ _ => rfl),
    aluFormsComplete_of_exec productOf_mul (fun _ _ _ _ => rfl) (fun _ _ _ _ => rfl),
    aluFormsComplete_of_exec conjunctionOf_and (fun _ _ _ _ => rfl) (fun _ _ _ _ => rfl),
    aluFormsComplete_of_exec disjunctionOf_or (fun _ _ _ _ => rfl) (fun _ _ _ _ => rfl),
    aluFormsComplete_of_exec exclusiveOrOf_xor (fun _ _ _ _ => rfl) (fun _ _ _ _ => rfl),
    aluFormsComplete_of_exec shiftedLeft_shiftAmount (fun _ _ _ _ => rfl) (fun _ _ _ _ => rfl),
    aluFormsComplete_of_exec shiftedRight_shiftAmount (fun _ _ _ _ => rfl) (fun _ _ _ _ => rfl),
    aluFormsComplete_of_exec shiftedRightSigned_shiftAmount (fun _ _ _ _ => rfl) (fun _ _ _ _ => rfl)⟩

/-! ### BR, CMP and CSET, LDR and STR -/

/-- Settles O26: the jumps of the two forms. -/
theorem branchFormsComplete : Obligations.BranchFormsComplete :=
  fun s link => ⟨fun imm => exec_brImm_jumpsTo link imm s, fun _ _ hr => exec_brReg_jumpsTo hr⟩

/-- CSET's result is 1 on a true condition and 0 on a false one. -/
theorem b2i_of_iff {p : Prop} {c : Bool} (h : c = true ↔ p) : (p → b2i c = 1) ∧ (¬ p → b2i c = 0) := by
  refine ⟨fun hp => ?_, fun hp => ?_⟩
  · rw [h.mpr hp]; rfl
  · rw [Bool.eq_false_iff.mpr (mt h.mp hp)]; rfl

/-- Settles O27: a code up to 10 evaluates to the truth of its comparison, which CMP writes to the latch and CSET,
as 1 or 0, to a register. -/
theorem compareFormsComplete : Obligations.CompareFormsComplete := by
  intro s cc lhs rhs l r hcc hl hr
  obtain ⟨c, hc, hiff⟩ := evalCond_decides_condTable hcc (s.reg l) (s.reg r)
  obtain ⟨hone, hzero⟩ := b2i_of_iff hiff
  exact ⟨⟨c, hiff, exec_cmp_writesLatch hl hr hc⟩,
    fun dst d hd => ⟨b2i c, hone, hzero, exec_cset_writesReg hl hr hd hc⟩⟩

/-- Settles O28: the load and the store at an effective address inside the data space. -/
theorem loadAndStoreFormsComplete : Obligations.LoadAndStoreFormsComplete :=
  fun s _ _ _ off _ b ht hb => ⟨effectiveAddress_eq b off s,
    fun hin => ⟨fun _ => exec_ldr_writesReg ht hb hin, exec_str_storesBytes ht hb hin⟩⟩

end Sys2Proof.Machine
end

section
/-! PROOF about what a step may change (10_state.md R11, R16: O35, O36, O37) and which words end a run or fault
(70_reset_and_hazards.md R129, O39; 30_encoding.md R76, O40). `exec_cases` says what an instruction does; what is left
is which words decode to the instruction that does it. -/

namespace Sys2Proof

/-! ### The bits of the words that decode to BR, CMP, STR and the HALT family -/

section
variable {w : InstrWord}

theorem bits_of_decode_br {i : Instr} {link : Bool} (hd : decode w = .instr i)
    (hi : (∃ imm, i = .brImm link imm) ∨ ∃ reg, i = .brReg link reg) : opcode w = 5#5 ∧ flag w 26 = link := by
  have hop : opcode w = 5#5 := by
    rcases hi with ⟨imm, rfl⟩ | ⟨reg, rfl⟩
    · exact opcode_of_decode (m := 0x28000000#32) hd rfl
    · exact opcode_of_decode (m := 0x2A000000#32) hd rfl
  have hB : decodeB w = i := Decoded.instr.inj ((decode_of_opcode_five hop).symm.trans hd)
  refine ⟨hop, ?_⟩
  unfold decodeB at hB
  rcases hi with ⟨imm, rfl⟩ | ⟨reg, rfl⟩
  · split at hB <;> cases hB; rfl
  · split at hB <;> cases hB; rfl

theorem bits_of_decode_cmp {cc : BitVec 4} {lhs rhs : Sel} (hd : decode w = .instr (.cmp cc lhs rhs)) :
    opcode w = 18#5 ∧ flag w 22 = false := by
  have hop : opcode w = 18#5 := opcode_of_decode (m := 0x90000000#32) hd rfl
  refine ⟨hop, Bool.eq_false_iff.mpr fun hm => ?_⟩
  rw [decode_of_opcode_eighteen hop, decodeC_cset hm] at hd
  cases hd

theorem fields_of_decode_str {ds : DataSize} {rt base : Sel} {off : BitVec 14}
    (hd : decode w = .instr (.str ds rt base off)) :
    opcode w = 20#5 ∧ DataSize.ofField (field w 25 2) = ds ∧ field w 14 5 = base ∧ field w 0 14 = off := by
  have hop : opcode w = 20#5 := opcode_of_decode (m := 0xA0000000#32) hd rfl
  rw [decode_of_opcode_twenty hop, decodeStr] at hd
  cases hd
  exact ⟨hop, rfl, rfl, rfl⟩

theorem opcode_of_decode_halt {i : Instr} (hd : decode w = .instr i)
    (hi : i = .halt ∨ i = .ret ∨ i = .syscall ∨ i = .call) : opcode w = 0#5 := by
  rcases hi with rfl | rfl | rfl | rfl <;> exact opcode_of_decode hd rfl

end

end Sys2Proof

namespace Sys2Proof.Machine

/-! ### What one instruction may change -/

section
variable {i : Instr} {s t : State}

/-- No instruction writes the unreachable registers, `sp` or the parameters. -/
theorem exec_hiddenKept (h : exec i s = .next t) : hiddenKept s t := by
  cases exec_cases h with
  | branch => exact ⟨branchTo_xr .., branchTo_iret .., branchTo_sysc .., branchTo_sp .., branchTo_code ..,
      branchTo_cap ..⟩
  | fault | halt | register | latch | store => exact ⟨rfl, rfl, rfl, rfl, rfl, rfl⟩

/-- Only BR with the link bit writes `fp`, with the return index. -/
theorem exec_fp (h : exec i s = .next t) (hne : t.fp ≠ s.fp) :
    ((∃ imm, i = .brImm true imm) ∨ ∃ reg, i = .brReg true reg) ∧ t.fp = s.ip := by
  cases exec_cases h with
  | branch link target hi =>
    cases link with
    | true => exact ⟨hi, branchTo_fp ..⟩
    | false => exact absurd (branchTo_fp ..) hne
  | fault | halt | register | latch | store => exact absurd rfl hne

/-- Only CMP writes the latch. -/
theorem exec_lastCmp (h : exec i s = .next t) (hne : t.lastCmp ≠ s.lastCmp) : ∃ cc lhs rhs, i = .cmp cc lhs rhs := by
  cases exec_cases h with
  | latch b hi => exact hi
  | branch => exact absurd (branchTo_lastCmp ..) hne
  | fault | halt | register | store => exact absurd rfl hne

/-- Only STR writes memory, in the bytes from its effective address, all inside the data space. -/
theorem exec_byteAt {a : Nat} (h : exec i s = .next t) (hne : t.byteAt a ≠ s.byteAt a) :
    ∃ ds rt base off, ∃ b : Fin 16, i = .str ds rt base off ∧ base.toNat = b.val ∧
      (effectiveAddress b off s).toNat ≤ a ∧ a < (effectiveAddress b off s).toNat + sizeBytes ds ∧ a < 8 * s.cap := by
  cases exec_cases h with
  | store ds rt base off b r hi hb hr hin =>
    have hinside : ¬ (a < (effectiveAddress b off s).toNat ∨
        (effectiveAddress b off s).toNat + sizeBytes ds ≤ a) :=
      fun hout => hne (Memory.readByte_storeLE_outside hout)
    exact ⟨ds, rt, base, off, b, hi, hb, by omega, by omega, by omega⟩
  | branch => exact absurd (branchTo_byteAt ..) hne
  | fault | halt | register | latch => exact absurd rfl hne

/-- An instruction writes one register slot and keeps the run state, or writes none. -/
theorem exec_reg (h : exec i s = .next t) :
    (∃ d, (∀ r, r ≠ d → t.reg r = s.reg r) ∧ t.run = s.run) ∨ ∀ r, t.reg r = s.reg r := by
  cases exec_cases h with
  | register d v => exact .inl ⟨d, fun _ hr => State.reg_setReg_of_ne s v hr, rfl⟩
  | branch link target => exact .inr (branchTo_reg link target s)
  | fault | halt | latch | store => exact .inr fun _ => rfl

/-- Only the HALT family halts. -/
theorem exec_halted {k : HaltKind} (hs : s.run = .running) (h : exec i s = .next t) (ht : t.run = .halted k) :
    i = .halt ∨ i = .ret ∨ i = .syscall ∨ i = .call := by
  cases exec_cases h with
  | halt k hi => exact hi
  | fault => cases ht
  | branch => simp [hs] at ht
  | register | latch | store => cases hs.symm.trans ht

end

/-! ### What one step may change -/

/-- Settles O35: a fetch or decoding fault writes `run` and `ip`, and an instruction that writes `fp` is a linking BR,
one that writes the latch a CMP. -/
theorem controlStateHasItsWriters : Obligations.ControlStateHasItsWriters := by
  intro s t h
  rcases step_next_cases h with ⟨-, -, rfl⟩ | ⟨w, op, -, -, rfl⟩ | ⟨w, i, hw, hd, he⟩
  · exact ⟨⟨rfl, rfl, rfl, rfl, rfl, rfl⟩, fun hne => absurd rfl hne, fun hne => absurd rfl hne⟩
  · exact ⟨⟨rfl, rfl, rfl, rfl, rfl, rfl⟩, fun hne => absurd rfl hne, fun hne => absurd rfl hne⟩
  · refine ⟨exec_hiddenKept (s := s.fetched) he, fun hne => ?_, fun hne => ?_⟩
    · obtain ⟨hbr, hfp⟩ := exec_fp he hne
      obtain ⟨hop, hlink⟩ := bits_of_decode_br hd hbr
      exact ⟨w, hw, hop, hlink, hfp⟩
    · obtain ⟨cc, lhs, rhs, rfl⟩ := exec_lastCmp he hne
      obtain ⟨hop, hm⟩ := bits_of_decode_cmp hd
      exact ⟨w, hw, hop, hm⟩

/-- Settles O36: an instruction that writes a byte is an STR, whose access the bits of its word give. -/
theorem onlyStrWritesMemory : Obligations.OnlyStrWritesMemory := by
  intro s t h
  obtain ⟨⟨-, -, -, -, hcode, -⟩, -, -⟩ := controlStateHasItsWriters s t h
  refine ⟨hcode, fun a hne => ?_⟩
  rcases step_next_cases h with ⟨-, -, rfl⟩ | ⟨w, op, -, -, rfl⟩ | ⟨w, i, hw, hd, he⟩
  · exact absurd rfl hne
  · exact absurd rfl hne
  · obtain ⟨ds, rt, base, off, b, rfl, hb, hlo, hhi, hin⟩ := exec_byteAt he hne
    obtain ⟨hop, rfl, rfl, rfl⟩ := fields_of_decode_str hd
    rw [effectiveAddress_eq, State.reg_fetched] at hlo hhi
    rw [sizeBytes_ofField] at hhi
    exact ⟨w, b, hw, hop, hb, hlo, hhi, hin⟩

/-- Settles O37: a fetch or decoding fault writes no register, and an instruction writes one only if it goes on
running. -/
theorem atMostOneRegisterIsWritten : Obligations.AtMostOneRegisterIsWritten := by
  intro s t h
  rcases step_next_cases h with ⟨-, -, rfl⟩ | ⟨w, op, -, -, rfl⟩ | ⟨w, i, ⟨hr, -⟩, -, he⟩
  · exact ⟨⟨0, fun _ _ => rfl⟩, fun _ _ => rfl⟩
  · exact ⟨⟨0, fun _ _ => rfl⟩, fun _ _ => rfl⟩
  · rcases exec_reg he with ⟨d, hreg, hrun⟩ | hreg
    · exact ⟨⟨d, hreg⟩, fun hstop => absurd (hrun.trans hr) hstop⟩
    · exact ⟨⟨0, fun r _ => hreg r⟩, fun _ => hreg⟩

/-- Settles O39: only the HALT family halts, and it is opcode 0. -/
theorem haltsExactlyOnOpcodeZero : Obligations.HaltsExactlyOnOpcodeZero := by
  intro s t h
  constructor
  · rintro ⟨k, ht⟩
    rcases step_next_cases h with ⟨-, -, rfl⟩ | ⟨w, op, -, -, rfl⟩ | ⟨w, i, hw, hd, he⟩
    · cases ht
    · cases ht
    · exact ⟨w, hw, opcode_of_decode_halt hd (exec_halted (s := s.fetched) hw.1 he ht)⟩
  · rintro ⟨w, hw, hop⟩
    have hstep := step_of_opcode_zero hw hop
    cases h.symm.trans hstep
    exact ⟨_, rfl⟩

/-! ### Which encodings fault (30_encoding.md R76) -/

theorem selectorFault_eq_none {sels : List Sel} : selectorFault sels = none ↔ sels.all selValid = true := by
  simp [selectorFault, selValid, Nat.lt_succ_iff]

theorem condDefined_eq_false {cc : BitVec 4} : condDefined cc = false ↔ 11 ≤ cc.toNat := by
  simp [condDefined, Nat.succ_le_iff]

/-- A reserved condition code faults once the selectors are valid. -/
theorem executionFault_of_reserved {i : Instr} (s : State) (h : i.condCode.all condDefined = false) :
    executionFault i s = some (.unsupported 18#5) := by
  cases i with
  | cmp | cset => exact if_pos (condDefined_eq_false.mp h)
  | _ => cases h

/-- An ill-formed instruction has a fault: its first invalid selector, or its reserved condition code. -/
theorem instrFault_of_ill_formed {i : Instr} (s : State) (h : wellFormed i = false) : ∃ e, instrFault i s = some e := by
  rw [instrFault]
  cases hsel : selectorFault i.selectors with
  | some e => exact ⟨e, rfl⟩
  | none =>
    rw [wellFormed, selectorFault_eq_none.mp hsel, Bool.true_and] at h
    exact ⟨_, executionFault_of_reserved s h⟩

/-- A well-formed instruction other than DIV and MOD has no fault but the memory fault of LDR and STR. -/
theorem instrFault_of_wellFormed {i : Instr} {s : State} {e : ErrorKind} (h : wellFormed i = true) (hdiv : i ≠ .div)
    (hmod : i ≠ .mod) (he : instrFault i s = some e) :
    ((∃ ds sx rt base off, i = .ldr ds sx rt base off) ∨ ∃ ds rt base off, i = .str ds rt base off) ∧
      ∃ addr n, e = .memoryFault addr n := by
  obtain ⟨hsel, hcond⟩ := Bool.and_eq_true_iff.mp h
  rw [instrFault, selectorFault_eq_none.mpr hsel, Option.none_or] at he
  cases i with
  | div => exact absurd rfl hdiv
  | mod => exact absurd rfl hmod
  | cmp cc | cset cc =>
    have hcc : ¬ 11 ≤ cc.toNat := fun hcc => by
      rw [Instr.condCode, Option.all_some, condDefined_eq_false.mpr hcc] at hcond
      cases hcond
    rw [executionFault, if_neg hcc] at he
    cases he
  | ldr ds sx rt base off =>
    obtain ⟨-, he⟩ := (Option.ite_none_right_eq_some ..).mp he
    cases he
    exact ⟨.inl ⟨_, _, _, _, _, rfl⟩, _, _, rfl⟩
  | str ds rt base off =>
    obtain ⟨-, he⟩ := (Option.ite_none_right_eq_some ..).mp he
    cases he
    exact ⟨.inr ⟨_, _, _, _, rfl⟩, _, _, rfl⟩
  | _ => cases he

/-- Settles O40: the instruction ends faulted exactly when it has a fault, which its form decides. -/
theorem onlyFaultingEncodingsFault : Obligations.OnlyFaultingEncodingsFault := by
  intro i s t hs h
  refine ⟨fun hill => ?_, fun hwf hdiv hmod => ?_⟩
  · obtain ⟨e, he⟩ := instrFault_of_ill_formed s hill
    exact ⟨e, (exec_fault_iff hs h e).mpr he⟩
  · by_cases hsafe : t.notFaulted
    · exact .inl hsafe
    · obtain ⟨e, ht⟩ : ∃ e, t.run = .faulted e := by simpa [State.notFaulted] using hsafe
      obtain ⟨hform, addr, n, rfl⟩ := instrFault_of_wellFormed hwf hdiv hmod ((exec_fault_iff hs h e).mp ht)
      exact .inr ⟨hform, addr, n, ht⟩

end Sys2Proof.Machine
end

section
/-! PROOF that no step reads `fp`, `sp`, the latch or the unreachable registers (10_state.md R17, R21 to R23, O38). The
part of a state that steps read is the state with the rest blanked; every operation commutes with the blanking as far as
that part can tell. -/

namespace Sys2Proof.Machine

/-! ### The part of a state that steps read -/

/-- The state with everything blanked that no step reads. -/
def State.readable (s : State) : State :=
  { s with xr := [], iret := 0, sysc := 0, fp := 0, sp := 0, lastCmp := false }

/-- `agree` is equality of the readable parts. -/
theorem agree_iff_readable_eq {s t : State} : agree s t ↔ s.readable = t.readable := by
  simp only [agree, State.readable, State.mk.injEq, true_and]

theorem run_eq_of_agree {s t : State} (h : agree s t) : s.run = t.run := by
  obtain ⟨-, -, -, hrun, -⟩ := h
  exact hrun

/-- An outcome with the readable part of its next state. -/
def readableOut : Out → Out
  | .next t => .next t.readable
  | .fault r => .fault r
  | .refused r => .refused r

theorem exists_next_of_readableOut_eq {o : Out} {t : State} (h : readableOut o = readableOut (.next t)) :
    ∃ u, o = .next u ∧ u.readable = t.readable := by
  cases o with
  | next u => exact ⟨u, rfl, Host.Outcome.next.inj h⟩
  | fault | refused => cases h

/-! ### The operations, one by one -/

/-- An operation whose result has a fixed readable part ends the instruction alike. -/
theorem complete_readable {s : State} {r r' : Except ErrorKind State}
    (h : State.readable <$> r' = State.readable <$> r) :
    readableOut (complete s.readable r') = readableOut (complete s r) := by
  cases r with
  | ok t =>
    cases r' with
    | ok t' => exact congrArg Host.Outcome.next (Except.ok.inj h)
    | error e => cases h
  | error e =>
    cases r' with
    | ok t' => cases h
    | error e' => cases h; rfl

theorem operand_readable {n : Nat} (o : Operand n) (s : State) : operand o s.readable = operand o s := by
  cases o <;> rfl

theorem moveOp_readable (f : Word → Word) (dst : Sel) (o : Operand 21) (s : State) :
    State.readable <$> moveOp f dst o s.readable = State.readable <$> moveOp f dst o s := by
  simp only [moveOp, operand_readable, map_bind, map_pure]
  rfl

theorem accumulateOp_readable (dst : Sel) (quad : BitVec 2) (o : Operand 18) (s : State) :
    State.readable <$> accumulateOp dst quad o s.readable = State.readable <$> accumulateOp dst quad o s := by
  simp only [accumulateOp, operand_readable, map_bind, map_pure]
  rfl

theorem aluOp_readable (f : Word → Word → Word) (dst src : Sel) (o : Operand 16) (s : State) :
    State.readable <$> aluOp f dst src o s.readable = State.readable <$> aluOp f dst src o s := by
  simp only [aluOp, operand_readable, map_bind, map_pure]
  rfl

theorem branchTo_readable (link : Bool) (target : Word) (s : State) :
    (branchTo link target s.readable).readable = (branchTo link target s).readable := by
  cases link <;> rfl

theorem memWrite_readable (addr : Word) (n : Nat) (v : Word) (s : State) :
    State.readable <$> memWrite addr n v s.readable = State.readable <$> memWrite addr n v s := by
  rw [memWrite, memWrite, apply_ite (f := (State.readable <$> · : Except ErrorKind State → _)),
    apply_ite (f := (State.readable <$> · : Except ErrorKind State → _))]
  rfl

/-! ### Instructions, steps and runs -/

/-- No instruction reads what is blanked. -/
theorem exec_readable (i : Instr) (s : State) : readableOut (exec i s.readable) = readableOut (exec i s) := by
  cases i with
  | halt | ret | syscall | call | div | mod => rfl
  | mvnotImm | mvnotReg | mvnegImm | mvnegReg | movImm | movReg => exact complete_readable (moveOp_readable ..)
  | mvaImm | mvaReg => exact complete_readable (accumulateOp_readable ..)
  | addImm | addReg | subImm | subReg | multImm | multReg => exact complete_readable (aluOp_readable ..)
  | andImm | andReg | orImm | orReg | xorImm | xorReg => exact complete_readable (aluOp_readable ..)
  | lslImm | lslReg | lsrImm | lsrReg | asrImm | asrReg => exact complete_readable (aluOp_readable ..)
  | brImm => exact congrArg Host.Outcome.next (branchTo_readable ..)
  | brReg | lea | cmp | cset | ldr | str =>
    refine complete_readable ?_
    simp only [map_bind, map_pure, branchTo_readable, memWrite_readable]
    rfl

/-- No step reads what is blanked. -/
theorem step_readable (s : State) : readableOut (step s.readable) = readableOut (step s) := by
  rcases step_cases s with ⟨hr, hs⟩ | ⟨hr, hc, hs⟩ | ⟨w, op, hr, hw, hd, hs⟩ | ⟨w, i, hr, hw, hd, hs⟩
  · rw [hs, step_of_not_running (s := s.readable) hr]
  · rw [hs, step_of_codeRead_none (s := s.readable) hr hc]
    rfl
  · rw [hs, step_of_decode_unknownOpcode (s := s.readable) ⟨hr, hw⟩ hd]
    rfl
  · rw [hs, step_of_decode_instr (s := s.readable) ⟨hr, hw⟩ hd]
    exact exec_readable i s.fetched

/-- Steps of agreeing machines agree. -/
theorem step_agree {s t s' : State} (h : agree s t) (hs : step s = .next s') :
    ∃ t', step t = .next t' ∧ agree s' t' := by
  have hout : readableOut (step t) = readableOut (.next s') := by
    rw [← hs, ← step_readable t, ← step_readable s, agree_iff_readable_eq.mp h]
  obtain ⟨t', ht, heq⟩ := exists_next_of_readableOut_eq hout
  exact ⟨t', ht, agree_iff_readable_eq.mpr heq.symm⟩

/-- Runs of agreeing machines agree. -/
theorem runFor_agree (n : Nat) {s t : State} (h : agree s t) : agree (runFor n s) (runFor n t) := by
  induction n generalizing s t with
  | zero => exact h
  | succ n ih =>
    by_cases hs : s.run = .running
    · obtain ⟨s', hs'⟩ := step_of_running hs
      obtain ⟨t', ht', hagree⟩ := step_agree h hs'
      rw [runFor_succ_of_step hs', runFor_succ_of_step ht']
      exact ih hagree
    · rw [runFor_of_not_running _ hs, runFor_of_not_running _ (run_eq_of_agree h ▸ hs)]
      exact h

/-- Settles O38: runs of agreeing machines agree, in the run state too, which alone decides the result. -/
theorem unreadStateNeverMatters : Obligations.UnreadStateNeverMatters :=
  fun n _ _ h => ⟨runFor_agree n h, congrArg terminalValue (run_eq_of_agree (runFor_agree n h))⟩

end Sys2Proof.Machine
end

section
/-! PROOF of the invariant (10_state.md R22, R24; 60_exceptions.md R113): every step keeps it (O29), the machines at
reset and from `create` meet it (O30, O31), and the stack controller keeps it (O48); and of the two views of the stack
array (20_memory.md R34, R50, O43), by which `create` is read word by word. -/

namespace Sys2Proof.Machine

/-! ### The faults an instruction raises are legal -/

/-- The fault of a selector is legal: it is the value of an invalid selector. -/
theorem legalError_of_selectorFault {sels : List Sel} {e : ErrorKind} (s : State)
    (h : selectorFault sels = some e) : legalError s e := by
  obtain ⟨sel, hfind, rfl⟩ := Option.map_eq_some_iff.mp h
  have hsel : 16 ≤ sel.toNat := by simpa using List.find?_some hfind
  exact hsel

/-- The fault of an access outside the data space is legal. -/
theorem legalError_memoryFault {s : State} {addr : Word} {ds : DataSize}
    (h : 8 * s.cap < addr.toNat + sizeBytes ds) : legalError s (.memoryFault addr (sizeBytes ds)) :=
  ⟨sizeBytes_cases ds, h⟩

theorem legalError_of_executionFault {i : Instr} {s : State} {e : ErrorKind} (h : executionFault i s = some e) :
    legalError s e := by
  cases i with
  | div => cases h; exact .inl rfl
  | mod => cases h; exact .inr (.inl rfl)
  | cmp | cset =>
    obtain ⟨-, h⟩ := (Option.ite_none_right_eq_some ..).mp h
    cases h
    exact .inr (.inr rfl)
  | ldr | str =>
    obtain ⟨hout, h⟩ := (Option.ite_none_right_eq_some ..).mp h
    cases h
    exact legalError_memoryFault hout
  | _ => cases h

theorem legalError_of_instrFault {i : Instr} {s : State} {e : ErrorKind} (h : instrFault i s = some e) :
    legalError s e := by
  rcases Option.or_eq_some_iff.mp h with h | ⟨-, h⟩
  · exact legalError_of_selectorFault s h
  · exact legalError_of_executionFault h

/-! ### What keeps the invariant -/

namespace State.Inv

section
variable {s t : State}

/-- A state with the same memory, `sp` and parameters meets the invariant when its own fault is legal. -/
theorem of_same_storage (h : s.Inv) (hmem : t.mem = s.mem) (hsp : t.sp = s.sp) (hcode : t.code = s.code)
    (hcap : t.cap = s.cap) (hfault : ∀ e, t.run = .faulted e → legalError t e) : t.Inv where
  memCanonical := hmem ▸ h.memCanonical
  memInside := by rw [hmem, hcap]; exact h.memInside
  stackBound := by rw [hsp, hcap]; exact h.stackBound
  capRounded := hcap ▸ h.capRounded
  codeBound := hcode ▸ h.codeBound
  faultLegal := hfault

/-- A sized store inside the data space keeps the invariant. -/
theorem storeLE (h : s.Inv) {a n : Nat} (v : Word) (hin : a + n ≤ 8 * s.cap) :
    (s.setMem (Memory.storeLE s.mem a v n)).Inv where
  memCanonical := Memory.wf_storeLE a v n h.memCanonical
  memInside c hc := by
    rcases Memory.mem_storeLE hc with ⟨-, hlt⟩ | hc
    · exact hlt.trans_le hin
    · exact h.memInside c hc
  stackBound := h.stackBound
  capRounded := h.capRounded
  codeBound := h.codeBound
  faultLegal := h.faultLegal

/-- Moving `sp` inside the array keeps the invariant. -/
theorem setSp (h : s.Inv) {n : Nat} (hn : n ≤ s.cap) : (s.setSp n).Inv :=
  { h with stackBound := hn }

/-- Writing a word of the array keeps the invariant. -/
theorem setStackWord (h : s.Inv) {j : Nat} (v : Word) (hj : j < s.cap) : (s.setStackWord j v).Inv :=
  h.storeLE v (by omega)

/-- An instruction run in a running machine keeps the invariant: its fault is the one `instrFault` names, and a store
lies inside the data space. -/
theorem of_exec {i : Instr} (h : s.Inv) (hr : s.run = .running) (he : exec i s = .next t) : t.Inv := by
  have hlegal : ∀ e, t.run = .faulted e → legalError s e := fun e ht =>
    legalError_of_instrFault ((exec_fault_iff hr he e).mp ht)
  cases exec_cases he with
  | fault | halt | register | latch => exact h.of_same_storage rfl rfl rfl rfl hlegal
  | branch link target =>
    refine h.of_same_storage (branchTo_mem ..) (branchTo_sp ..) (branchTo_code ..) (branchTo_cap ..) fun e ht => ?_
    rw [branchTo_run, hr] at ht
    cases ht
  | store ds rt base off b r hi hb hrt hin => exact h.storeLE _ hin

end

end State.Inv

/-! ### Steps, reset -/

/-- Settles O29: a failed fetch and an unknown opcode raise legal faults, and an instruction keeps the invariant. -/
theorem stepKeepsInvariant : Obligations.StepKeepsInvariant := by
  intro s t h hs
  rcases step_next_cases hs with ⟨-, hc, rfl⟩ | ⟨w, op, -, hd, rfl⟩ | ⟨w, i, hw, -, he⟩
  · refine h.of_same_storage rfl rfl rfl rfl fun e ht => ?_
    cases ht
    exact ⟨rfl, List.getElem?_eq_none_iff.mp hc⟩
  · refine h.of_same_storage rfl rfl rfl rfl fun e ht => ?_
    cases ht
    obtain ⟨hop, rfl⟩ := opcode_of_decode_unknownOpcode hd
    exact hop
  · have hfetched : s.fetched.Inv := h.of_same_storage rfl rfl rfl rfl fun e hr => nomatch hw.1.symm.trans hr
    exact hfetched.of_exec hw.1 he

/-- Settles O30: the reset memory lists nothing, and CAP is 8. -/
theorem resetMeetsInvariant : Obligations.ResetMeetsInvariant where
  memCanonical := Memory.wf_reset
  memInside := fun _ hc => nomatch hc
  stackBound := Nat.zero_le _
  capRounded := by decide
  codeBound := by decide
  faultLegal := fun _ hr => nomatch hr

/-! ### The stack controller -/

/-- If `pop` answers, it lowered `sp` by one. -/
theorem pop_cases {s t : State} {v : Word} (h : pop s = .ok (v, t)) : t = s.setSp (s.sp - 1) := by
  by_cases hempty : s.sp = 0
  · rw [pop_empty hempty] at h
    cases h
  · rw [pop_ok (Nat.pos_of_ne_zero hempty)] at h
    exact (congrArg Prod.snd (Except.ok.inj h)).symm

/-- If `set_n` answers, it wrote a word below `sp`. -/
theorem setN_cases {s t : State} {index : Nat} {v : Word} (h : setN index v s = .ok t) :
    index < s.sp ∧ t = s.setStackWord index v := by
  by_cases hvalid : 1 ≤ index ∧ index < s.sp
  · rw [setN_ok hvalid.1 hvalid.2] at h
    exact ⟨hvalid.2, (Except.ok.inj h).symm⟩
  · rw [setN_invalid (by omega)] at h
    cases h

/-- Settles O48: a push and a `set_n` write a word of the array, and `sp` stays inside it. -/
theorem stackControllerKeepsInvariant : Obligations.StackControllerKeepsInvariant := by
  intro s h
  have hbound := h.stackBound
  refine ⟨fun v => ?_, fun v t hpop => ?_, fun index v t hset => ?_, fun n => ?_⟩
  · by_cases hroom : s.sp < s.cap
    · rw [push_ok hroom]
      exact (h.setStackWord v hroom).setSp hroom
    · rw [push_full (Nat.not_lt.mp hroom)]
      exact h
  · rw [pop_cases hpop]
    exact h.setSp (by omega)
  · obtain ⟨hindex, rfl⟩ := setN_cases hset
    exact h.setStackWord v (by omega)
  · by_cases hroom : s.sp + n ≤ s.cap
    · rw [reserve_ok hroom]
      exact h.setSp hroom
    · rw [reserve_full (Nat.not_le.mp hroom)]
      exact h

/-! ### Words and bytes of the stack array (20_memory.md R34, R50) -/

/-- Byte `8j + k` is byte `k` of stack word `j`. -/
theorem byteAt_eq_byteOfWord_stackWord (s : State) (j : Nat) {k : Nat} (hk : k < 8) :
    s.byteAt (8 * j + k) = byteOfWord (s.stackWord j) k := Memory.readByte_eq_loadLE s.mem (8 * j) hk

/-- Settles O43: the word is the load of its bytes, and writing it stores them alone. -/
theorem stackWordsAndBytesAreOneArray : Obligations.StackWordsAndBytesAreOneArray :=
  fun s j v => ⟨fun _ hk => byteAt_eq_byteOfWord_stackWord s j hk, fun _ hk => Memory.readByte_storeLE hk,
    fun _ hi => stackWord_setStackWord_of_ne s v hi⟩

/-- A stack word is the one its eight bytes come from: writing that word would change none of them. -/
theorem stackWord_eq_of_bytes {s : State} {j : Nat} {v : Word}
    (h : ∀ k, k < 8 → s.byteAt (8 * j + k) = byteOfWord v k) : s.stackWord j = v := by
  have hsame : s.stackWord j = (s.setStackWord j v).stackWord j :=
    congrArg (BitVec.ofNat 64) (Memory.loadLE_congr fun k hk => (h k hk).trans (Memory.readByte_storeLE hk).symm)
  rw [hsame, stackWord_setStackWord_self]

/-! ### `create` (70_reset_and_hazards.md R124) -/

/-- The machine `create` builds when the capacity is granted. -/
def createdState (code : List InstrWord) (req start : Word) (nExt : Nat) (memInit : Nat → Word) : State where
  x := Vector.replicate 16 0
  xr := List.replicate nExt 0
  iret := 0
  sysc := 0
  ip := start
  fp := 0
  sp := 0
  lastCmp := false
  mem := initialMemory memInit (8 * capacityFor req)
  run := .running
  code := code
  cap := capacityFor req

section
variable (code : List InstrWord) (req start : Word) (nExt : Nat) (memInit : Nat → Word) {maxWords : Nat}

theorem create_of_capacity_le (h : capacityFor req ≤ maxWords) :
    create code req start maxWords nExt memInit = .machine (createdState code req start nExt memInit) :=
  if_neg (Nat.not_lt.mpr h)

theorem create_of_lt_capacity (h : maxWords < capacityFor req) :
    create code req start maxWords nExt memInit = .allocationFailure := if_pos h

theorem reg_createdState (r : Fin 16) : (createdState code req start nExt memInit).reg r = 0 := by
  simp [createdState, State.reg]

theorem stackWord_createdState {j : Nat} (h : j < capacityFor req) :
    (createdState code req start nExt memInit).stackWord j = memInit j := by
  refine stackWord_eq_of_bytes fun k hk => (readByte_initialMemory (by omega)).trans ?_
  rw [show (8 * j + k) / 8 = j by omega, show (8 * j + k) % 8 = k by omega]

theorem inv_createdState (h : code.length < 2 ^ 64) : (createdState code req start nExt memInit).Inv where
  memCanonical := Memory.wf_initialMemory _ _
  memInside := fun _ hc => mem_initialMemory hc
  stackBound := Nat.zero_le _
  capRounded := Nat.mul_mod_right ..
  codeBound := h
  faultLegal := fun _ hr => nomatch hr

end

/-- Settles O31: the capacity is `capacityFor`, and the machine built is `createdState`. -/
theorem createBuildsTheResetMachine : Obligations.CreateBuildsTheResetMachine := by
  intro code req start maxWords nExt memInit
  have hcap : capacityFor req = 8 * ((req.toNat + 7) / 8) := rfl
  refine ⟨capacityFor req, by omega, by omega, by omega, create_of_lt_capacity code req start nExt memInit,
    fun h => ⟨_, create_of_capacity_le code req start nExt memInit h, ?_⟩⟩
  exact ⟨reg_createdState code req start nExt memInit, rfl, rfl, rfl, rfl, rfl, rfl, rfl, rfl, rfl, rfl,
    fun j hj => stackWord_createdState code req start nExt memInit hj, inv_createdState code req start nExt memInit⟩

end Sys2Proof.Machine
end
